-- ==== Sys2Proof/Word.lean ====
section
/-!
DEFINITION. The words of the FixedPoint Engine: the 32-bit pattern an operand or a result field holds, the 72-bit
command word and the 40-bit response word (30_encoding.md R40, R41). The FPE has no bytes and no addresses
(20_memory.md R30, R31), so there is no byte type.
-/

namespace Sys2Proof

/-- A 32-bit pattern: an operand field or a result field (10_state.md R21 to R23). -/
abbrev Word32 := BitVec 32

/-- An opcode field (30_encoding.md R40, bits 71:64). -/
abbrev Opcode := BitVec 8

/-- A command word, 72 bits always (30_encoding.md R40). -/
abbrev CommandWord := BitVec 72

/-- A response word, 40 bits always (30_encoding.md R41). -/
abbrev ResponseWord := BitVec 40

end Sys2Proof
end

