-- ==== Sys2Proof/Syntax.lean ====
section
/-!
DEFINITION. The 23 commands of FPE command set 1.0 (30_encoding.md R44), one constructor per row of
spec/opcode_table.json, in the table's order. A one-operand command carries `a` only: its `bfield` is ignored
completely and every value of it gives the same response (30_encoding.md R42). There are no immediates, register
numbers or addressing modes (R42), no compressed form and no mode bit (R47).
-/

namespace Sys2Proof

/-- A decoded command with its operand patterns. -/
inductive Instr where
  /-- saturating addition (41_arithmetic.md R65) -/
  | add (a b : Word32)
  /-- saturating subtraction (41_arithmetic.md R66) -/
  | sub (a b : Word32)
  /-- multiplication with rescaling (41_arithmetic.md R67) -/
  | mul (a b : Word32)
  /-- division with prescaling (41_arithmetic.md R68) -/
  | div (a b : Word32)
  /-- the sign as a Fixed value (42_sign_rounding.md R75) -/
  | sign (a : Word32)
  /-- absolute value (42_sign_rounding.md R76) -/
  | abs (a : Word32)
  /-- round toward minus infinity (42_sign_rounding.md R77) -/
  | floor (a : Word32)
  /-- round toward plus infinity (42_sign_rounding.md R78) -/
  | ceil (a : Word32)
  /-- round to nearest, a tie up (42_sign_rounding.md R79) -/
  | round (a : Word32)
  /-- fractional part (42_sign_rounding.md R80) -/
  | mod (a : Word32)
  /-- less than (43_comparison.md R85) -/
  | lt (a b : Word32)
  /-- less than or equal (43_comparison.md R86) -/
  | le (a b : Word32)
  /-- greater than (43_comparison.md R87) -/
  | gt (a b : Word32)
  /-- greater than or equal (43_comparison.md R88) -/
  | ge (a b : Word32)
  /-- equal (43_comparison.md R89) -/
  | eq (a b : Word32)
  /-- sine (45_trig_ops.md R105) -/
  | sin (a : Word32)
  /-- cosine (45_trig_ops.md R106) -/
  | cos (a : Word32)
  /-- tangent (45_trig_ops.md R107) -/
  | tan (a : Word32)
  /-- two-argument arctangent, `a` is y and `b` is x (45_trig_ops.md R108) -/
  | atan2 (a b : Word32)
  /-- radians to degrees (46_angle_units.md R113) -/
  | todeg (a : Word32)
  /-- degrees to radians (46_angle_units.md R114) -/
  | torad (a : Word32)
  /-- integer to Fixed (40_conversion.md R55) -/
  | fromint (a : Word32)
  /-- Fixed to integer (40_conversion.md R56) -/
  | toint (a : Word32)
  deriving DecidableEq, Repr

end Sys2Proof
end

