-- ==== Sys2Proof/Decode.lean ====
section
/-!
DEFINITION. The command encoding (30_encoding.md R40, R42 to R47): the fields of a command word, the opcode map as a
table that reads like R44, a decoder total on all 2^72 command words that rejects an unassigned opcode by name (R43,
R45), and the encoder. Every word is one 72-bit vector numbered from bit 0, its least significant bit: the FPE has no
byte order (20_memory.md R31).
-/

namespace Sys2Proof

/-- `op`, bits 71:64 of a command word (30_encoding.md R40). -/
def opField (c : CommandWord) : Opcode := c.extractLsb' 64 8

/-- `afield`, bits 63:32 of a command word (30_encoding.md R40). -/
def aField (c : CommandWord) : Word32 := c.extractLsb' 32 32

/-- `bfield`, bits 31:0 of a command word (30_encoding.md R40). -/
def bField (c : CommandWord) : Word32 := c.extractLsb' 0 32

/-- The command word with the given fields, `op * 2^64 + afield * 2^32 + bfield` (30_encoding.md R40). -/
def commandWord (op : Opcode) (a b : Word32) : CommandWord := 
  BitVec.ofNat 72 (op.toNat * 2 ^ 64 + a.toNat * 2 ^ 32 + b.toNat)

/-- How many operand fields a command reads (30_encoding.md R44, column "operands"). -/
inductive Arity where
  /-- `a` only: `bfield` is ignored (R42) -/
  | one
  /-- `a` and `b` -/
  | two
  deriving DecidableEq, Repr

/-- The format an operand or a result field is read in (10_state.md R21 to R23). -/
inductive Format where
  /-- Fixed: a two's complement raw integer standing for `raw / 65536` (R21) -/
  | fixed
  /-- Int32: a two's complement integer with no scaling (R22) -/
  | int32
  /-- Bool: the pattern 1 or 0 (R23) -/
  | bool
  deriving DecidableEq, Repr

/-- One row of the opcode map of 30_encoding.md R44. -/
structure OpcodeRow where
  /-- column `op` -/
  op : Opcode
  /-- column "mnemonic" -/
  mnemonic : String
  /-- column "operands" -/
  arity : Arity
  /-- column "types", the operands -/
  operandFormat : Format
  /-- column "types", the result -/
  resultFormat : Format
  /-- the command the two operand fields make -/
  build : Word32 → Word32 → Instr

/-- The 23 assigned opcodes (30_encoding.md R44). -/
def opcodeTable : List OpcodeRow := [
  ⟨0x00, "ADD", .two, .fixed, .fixed, fun a b => .add a b⟩,
  ⟨0x01, "SUB", .two, .fixed, .fixed, fun a b => .sub a b⟩,
  ⟨0x02, "MUL", .two, .fixed, .fixed, fun a b => .mul a b⟩,
  ⟨0x03, "DIV", .two, .fixed, .fixed, fun a b => .div a b⟩,
  ⟨0x10, "SIGN", .one, .fixed, .fixed, fun a _ => .sign a⟩,
  ⟨0x11, "ABS", .one, .fixed, .fixed, fun a _ => .abs a⟩,
  ⟨0x12, "FLOOR", .one, .fixed, .fixed, fun a _ => .floor a⟩,
  ⟨0x13, "CEIL", .one, .fixed, .fixed, fun a _ => .ceil a⟩,
  ⟨0x14, "ROUND", .one, .fixed, .fixed, fun a _ => .round a⟩,
  ⟨0x15, "MOD", .one, .fixed, .fixed, fun a _ => .mod a⟩,
  ⟨0x20, "LT", .two, .fixed, .bool, fun a b => .lt a b⟩,
  ⟨0x21, "LE", .two, .fixed, .bool, fun a b => .le a b⟩,
  ⟨0x22, "GT", .two, .fixed, .bool, fun a b => .gt a b⟩,
  ⟨0x23, "GE", .two, .fixed, .bool, fun a b => .ge a b⟩,
  ⟨0x24, "EQ", .two, .fixed, .bool, fun a b => .eq a b⟩,
  ⟨0x30, "SIN", .one, .fixed, .fixed, fun a _ => .sin a⟩,
  ⟨0x31, "COS", .one, .fixed, .fixed, fun a _ => .cos a⟩,
  ⟨0x32, "TAN", .one, .fixed, .fixed, fun a _ => .tan a⟩,
  ⟨0x33, "ATAN2", .two, .fixed, .fixed, fun a b => .atan2 a b⟩,
  ⟨0x34, "TODEG", .one, .fixed, .fixed, fun a _ => .todeg a⟩,
  ⟨0x35, "TORAD", .one, .fixed, .fixed, fun a _ => .torad a⟩,
  ⟨0x40, "FROMINT", .one, .int32, .fixed, fun a _ => .fromint a⟩,
  ⟨0x41, "TOINT", .one, .fixed, .int32, fun a _ => .toint a⟩]

/-- Why a command word is no command of command set 1.0. -/
inductive DecodeError where
  /-- one of the 233 opcodes no command is assigned to; the machine answers it with `ILL` and goes on
  (30_encoding.md R45) -/
  | unassigned (op : Opcode)
  deriving DecidableEq, Repr

/-- The row of the opcode map an opcode selects, if it is assigned (30_encoding.md R43, R44). -/
def findRow (op : Opcode) : Option OpcodeRow := opcodeTable.find? fun row => row.op == op

/-- Decoding, total on every command word (30_encoding.md R43): the command, or the unassigned opcode by name. -/
def decode (c : CommandWord) : Except DecodeError Instr :=
  match findRow (opField c) with
  | some row => .ok (row.build (aField c) (bField c))
  | none => .error (.unassigned (opField c))

/-- The opcode of a command (30_encoding.md R44). -/
def opcodeOf (i : Instr) : Opcode :=
  match i with
  | .add _ _ => 0x00
  | .sub _ _ => 0x01
  | .mul _ _ => 0x02
  | .div _ _ => 0x03
  | .sign _ => 0x10
  | .abs _ => 0x11
  | .floor _ => 0x12
  | .ceil _ => 0x13
  | .round _ => 0x14
  | .mod _ => 0x15
  | .lt _ _ => 0x20
  | .le _ _ => 0x21
  | .gt _ _ => 0x22
  | .ge _ _ => 0x23
  | .eq _ _ => 0x24
  | .sin _ => 0x30
  | .cos _ => 0x31
  | .tan _ => 0x32
  | .atan2 _ _ => 0x33
  | .todeg _ => 0x34
  | .torad _ => 0x35
  | .fromint _ => 0x40
  | .toint _ => 0x41

/-- The two operand fields of a command; a one-operand command has 0 in the second, as the assembler writes it
(30_encoding.md R42, R48). -/
def operandsOf (i : Instr) : Word32 × Word32 :=
  match i with
  | .add a b | .sub a b | .mul a b | .div a b => (a, b)
  | .sign a | .abs a | .floor a | .ceil a | .round a | .mod a => (a, 0)
  | .lt a b | .le a b | .gt a b | .ge a b | .eq a b => (a, b)
  | .sin a | .cos a | .tan a => (a, 0)
  | .atan2 a b => (a, b)
  | .todeg a | .torad a | .fromint a | .toint a => (a, 0)

/-- The command word of a command (30_encoding.md R40, R44, R48). -/
def encode (i : Instr) : CommandWord := commandWord (opcodeOf i) (operandsOf i).1 (operandsOf i).2

/-- The command word whose lowest `nbits` bits are those of `w`, the rest 0, bit 0 the least significant bit as
spec/opcode_table.json numbers them: the whole 72 bits are one word, so there is nothing to lay out in bytes
(20_memory.md R31). -/
def tableCommandWord (nbits w : Nat) : CommandWord := BitVec.ofNat 72 (w % 2 ^ nbits)

/-- What the decoder reads from an instruction given as spec/opcode_table.json numbers its bits. -/
def decodeTableWord (nbits w : Nat) : Option Instr := (decode (tableCommandWord nbits w)).toOption

end Sys2Proof
end

