-- ==== Sys2Proof/Config.lean ====
section
/-!
DEFINITION. What an implementation fixes and the spec leaves open (00_scope.md R5). One parameter reaches the model:
`FPE_MAX_OUTSTANDING`. `FPE_LATENCY` and `FPE_BUS_MAPPING` are outside an untimed model of the FPE
(70_reset_and_hazards.md R144, 20_memory.md R34). No result of any command is open, so there is no free result value
(93_implementation_defined.md part 1).
-/

namespace Sys2Proof.Config

/-- By how much `FPE_MAX_OUTSTANDING` exceeds its least value 1. It has no body: nothing can be proved of it, so a
claim holds for every implementation (00_scope.md R5). -/
opaque maxOutstandingBeyondOne : Nat

/-- `FPE_MAX_OUTSTANDING`, the number of commands that may be accepted and not yet answered: "an integer of at least 1"
(00_scope.md R5, 10_state.md R26). -/
def maxOutstanding : Nat := maxOutstandingBeyondOne + 1

end Sys2Proof.Config
end

