-- ==== Sys2Proof/Machine/Operands.lean ====
section
/-!
DEFINITION. How a command's operands are read and the integer notation every rule is written in: the two's complement
reading and its inverse (00_scope.md R10), truncating division (R11), the floor shift and the clamp (R12), saturation
(R13), the real value of a raw integer (R14), and the one encoding of a truth value (10_state.md R23). Intermediate
values are unbounded integers (R9): a width appears only where a value enters or leaves a word.
-/

namespace Sys2Proof.Machine

/-- `MAX`, the largest raw value, 2147483647 (00_scope.md R5). -/
def maxRaw : Int := 2147483647

/-- `MIN`, the smallest raw value, -2147483648 (00_scope.md R5). -/
def minRaw : Int := -2147483648

/-- `F = 2^k` with `k = 16`, the scale factor 65536 (00_scope.md R5). -/
def scale : Int := 65536

/-- `signed32(p)`: the two's complement reading of a 32-bit pattern (00_scope.md R10, 30_encoding.md R42). -/
abbrev signed32 (p : Word32) : Int := p.toInt

/-- `bits32(v)`: the 32-bit pattern of an integer, `v mod 2^32` (00_scope.md R10). -/
def bits32 (v : Int) : Word32 := BitVec.ofInt 32 v

/-- `tdiv(n, d)`: division truncating toward zero, for `d` not zero (00_scope.md R11). -/
def tdiv (n d : Int) : Int := Int.tdiv n d

/-- `asr(v, n)`: the floor shift, the floor of `v / 2^n` (00_scope.md R12). -/
def asr (v : Int) (n : Nat) : Int := v / ((2 ^ n : Nat) : Int)

/-- `v << n`, that is `v * 2^n` (00_scope.md R12). -/
def shiftLeft (v : Int) (n : Nat) : Int := v * ((2 ^ n : Nat) : Int)

/-- `clamp(v, lo, hi) = min(max(v, lo), hi)` (00_scope.md R12). -/
def clamp (v lo hi : Int) : Int := min (max v lo) hi

/-- `sat32(v)`: the saturated value and whether clamping took place (00_scope.md R13, 10_state.md R25). -/
def sat32 (v : Int) : Int × Bool :=
  if v > maxRaw then (maxRaw, true)
  else if v < minRaw then (minRaw, true)
  else (v, false)

/-- The Bool format: the integer 1 for true and 0 for false, not the Fixed value 1.0 (10_state.md R23). -/
def boolRaw (b : Bool) : Int := if b then 1 else 0

/-- `val(a) = a / 65536`, the real value of a raw integer (00_scope.md R14, 10_state.md R21). -/
def val (a : Int) : Rat := (a : Rat) / 65536

/-- `fx(r)`, the raw integer nearest to a real value, `floor(r * 65536 + 1/2)` (00_scope.md R14). DESIGN CHOICE: the
exact real is a rational number (log entry 6). -/
def fx (r : Rat) : Int := (r * 65536 + 1 / 2).floor

end Sys2Proof.Machine
end

