-- ==== Sys2Proof/Machine/Flags.lean ====
section
/-!
DEFINITION. The three flags and the response word that carries them (10_state.md R24, 30_encoding.md R41,
60_exceptions.md R120 to R126). Flags exist only inside a response word: nothing holds them between commands.
-/

namespace Sys2Proof.Machine

/-- The set of flags a command raises (00_scope.md R15, 10_state.md R24). -/
structure Flags where
  /-- the exact result lay outside `MIN..MAX` (60_exceptions.md R121) -/
  sat : Bool := false
  /-- a `DIV` had a zero divisor (60_exceptions.md R122) -/
  dbz : Bool := false
  /-- the opcode is unassigned (60_exceptions.md R123) -/
  ill : Bool := false
  deriving DecidableEq, Repr

/-- The empty set of flags. -/
def noFlags : Flags := {}

/-- `{SAT} if s = 1 else {}`: the flags of a command whose result passed through `sat32` (10_state.md R25). -/
def satFlags (s : Bool) : Flags := { sat := s }

/-- `{DBZ}` (60_exceptions.md R122). -/
def dbzFlags : Flags := { dbz := true }

/-- `{ILL}` (60_exceptions.md R123). -/
def illFlags : Flags := { ill := true }

/-- `flags = ILL * 4 + DBZ * 2 + SAT` (30_encoding.md R41). -/
def flagsNumber (f : Flags) : Nat := f.ill.toNat * 4 + f.dbz.toNat * 2 + f.sat.toNat

/-- `respond(v, S)`: the response word with `y = bits32(v)`, exactly the flags of `S` equal to 1, and the five reserved
bits 0 (00_scope.md R15, 30_encoding.md R41, R46): as one number, `flags * 2^32 + y`. -/
def respond (v : Int) (f : Flags) : ResponseWord := BitVec.ofNat 40 (flagsNumber f * 2 ^ 32 + (bits32 v).toNat)

/-- `(y, s) = sat32(v); respond(y, {SAT} if s = 1 else {})`: how every command whose exact result can leave the range
ends (10_state.md R25). -/
def respondSaturated (v : Int) : ResponseWord := respond (sat32 v).1 (satFlags (sat32 v).2)

/-- The result field `y`, bits 31:0 (30_encoding.md R41). -/
def resultField (r : ResponseWord) : Word32 := r.extractLsb' 0 32

/-- The `SAT` bit, bit 32 (30_encoding.md R41). -/
def satBit (r : ResponseWord) : Bool := r.getLsbD 32

/-- The `DBZ` bit, bit 33 (30_encoding.md R41). -/
def dbzBit (r : ResponseWord) : Bool := r.getLsbD 33

/-- The `ILL` bit, bit 34 (30_encoding.md R41). -/
def illBit (r : ResponseWord) : Bool := r.getLsbD 34

/-- The reserved field, bits 39:35 (30_encoding.md R41, R46). -/
def reservedField (r : ResponseWord) : BitVec 5 := r.extractLsb' 35 5

/-- The flag byte, bits 39:32 (30_encoding.md R41, 60_exceptions.md R126). -/
def flagByte (r : ResponseWord) : BitVec 8 := r.extractLsb' 32 8

/-- The response to an unassigned opcode, `respond(0, {ILL})`, the word `0x04_00000000` (30_encoding.md R45,
60_exceptions.md R123). -/
def illegalResponse : ResponseWord := respond 0 illFlags

end Sys2Proof.Machine
end

