-- ==== Sys2Proof/Machine/State.lean ====
section
/-!
DEFINITION. The state of the machine. The FPE has no architectural state: no register, program counter, status, mode,
accumulator or memory (10_state.md R20), no flag held between commands (R24), no trap or interrupt state
(60_exceptions.md R127, R128), no privilege mode (R130). What there is to hold is the interface: the reset input
(70_reset_and_hazards.md R140), the command a host is submitting (30_encoding.md R49 item 1), the queue of accepted
commands (10_state.md R26) and the response being offered (R140). Two fields are the model's own: what the host has
received, and the order in which the agents move (log entries 1 and 2).
-/

namespace Sys2Proof.Machine

/-- One move of an agent (00_scope.md R8, 30_encoding.md R49, 70_reset_and_hazards.md R140). Several hosts are merged
into one stream of moves outside the FPE (R49 item 7). -/
inductive Input where
  /-- a host submits this command; one it had submitted and that is not yet accepted is changed into it (R49 item 1) -/
  | submit (c : CommandWord)
  /-- the host withdraws the command it submitted, if it is not yet accepted (R49 item 1) -/
  | withdraw
  /-- the FPE takes its one kind of step: it answers the oldest accepted command (R8) -/
  | fpe
  /-- the host takes the response being offered, which delivers it (R49 item 3, R140) -/
  | take
  /-- reset is asserted (R140) -/
  | assertReset
  /-- reset is released (R140) -/
  | releaseReset
  deriving DecidableEq, Repr

/-- The machine's state: plain data. -/
structure State where
  /-- whether the reset input is asserted (70_reset_and_hazards.md R140) -/
  rst : Bool
  /-- the command a host is submitting and the FPE has not accepted (30_encoding.md R49 item 1) -/
  waiting : Option CommandWord
  /-- the accepted commands not yet answered, oldest first (10_state.md R26) -/
  queue : List CommandWord
  /-- the response to the oldest accepted command, offered and not yet taken by the host
  (70_reset_and_hazards.md R140) -/
  offered : Option ResponseWord
  /-- the responses delivered to the host, oldest first (30_encoding.md R49 items 3 and 4); the model's own record, no
  storage of the FPE (log entry 2) -/
  delivered : List ResponseWord
  /-- the moves of the agents still to come, in order; when none is left the FPE answers and the host takes, one after
  the other; the model's own field (log entry 1) -/
  inputs : List Input
  deriving DecidableEq, Repr

/-- The state right after reset is released: "the FPE is idle: the queue ... is empty and the FPE accepts commands"
(70_reset_and_hazards.md R140, 10_state.md R28). Nothing submitted, nothing delivered and no move to come: log entries
1, 2 and 3. -/
def State.reset : State :=
  { rst := false, waiting := none, queue := [], offered := none, delivered := [], inputs := [] }

/-- Why the machine stops with a fault. There is no constructor: nothing stops the FPE. Every error condition is a flag
of a response and "the FPE does not stop" (60_exceptions.md R120), and there are no traps (R127). Safe. -/
inductive Fault where
  deriving DecidableEq, Repr

/-- Why the machine refuses an instruction. -/
inductive Refusal where
  /-- the instruction has no meaning in this model; raised by `exec` alone, for an arm not yet written. Safe: the run
  ends where the hardware goes on. No arm raises it. -/
  | notModelled (mnemonic : String)
  deriving DecidableEq, Repr

end Sys2Proof.Machine
end

