-- ==== Sys2Proof/Machine/Ops.lean ====
section
/-!
DEFINITION. The named operations on the state: answering a command, which is also the whole of reporting an error
condition (60_exceptions.md R120, R127: "the whole of 'trap entry' is the setting of a flag bit in one response", and
there is nothing to return from), and the interface of 30_encoding.md R49 and 70_reset_and_hazards.md R140.
-/

namespace Sys2Proof.Machine

/-- The state with a response offered to the host. The command it answers stays in the queue until the response is
delivered (10_state.md R26). -/
def State.offer (s : State) (r : ResponseWord) : State := { s with offered := some r }

/-- Answering the oldest accepted command: the response is offered and nothing else changes, whatever flags it carries
(10_state.md R20, 60_exceptions.md R120). The one operation every command ends in. -/
def answer (r : ResponseWord) (s : State) : Host.Outcome State Fault Refusal := .next (s.offer r)

/-- Answering an unassigned opcode: `respond(0, {ILL})`; the FPE does not trap, stall or change any state
(30_encoding.md R45, 60_exceptions.md R123). -/
def answerIllegal (s : State) : Host.Outcome State Fault Refusal := answer illegalResponse s

/-- Whether the queue can take another command (10_state.md R26). -/
def State.hasRoom (s : State) : Bool := decide (s.queue.length < Config.maxOutstanding)

/-- The submitted command the FPE accepts now, if any: none while reset is asserted (70_reset_and_hazards.md R140),
none while the queue is full; otherwise the FPE accepts at once (30_encoding.md R49 item 1). -/
def State.acceptable (s : State) : Option CommandWord :=
  if s.rst then none
  else match s.waiting with
    | none => none
    | some c => if s.hasRoom then some c else none

/-- Acceptance: the whole 72-bit command enters the queue as its newest entry (30_encoding.md R49 items 1, 2 and 4). -/
def State.accept (s : State) (c : CommandWord) : State := { s with waiting := none, queue := s.queue ++ [c] }

/-- The command the FPE answers next: the oldest accepted one, unless reset is asserted or its response is already
offered (00_scope.md R8, 70_reset_and_hazards.md R140). -/
def State.oldest (s : State) : Option CommandWord :=
  if s.rst || s.offered.isSome then none else s.queue.head?

/-- A host submits a command, in place of one it had submitted and that is not yet accepted (30_encoding.md R49
item 1). -/
def State.submit (s : State) (c : CommandWord) : State := { s with waiting := some c }

/-- The host withdraws a command that is not yet accepted (30_encoding.md R49 item 1). -/
def State.withdraw (s : State) : State := { s with waiting := none }

/-- Delivery: the host takes the offered response and the oldest command leaves the queue (10_state.md R26,
30_encoding.md R49 items 3 and 4). Nothing is delivered while reset is asserted or while nothing is offered
(70_reset_and_hazards.md R140). -/
def State.take (s : State) : State :=
  if s.rst then s
  else match s.offered with
    | none => s
    | some r => { s with offered := none, queue := s.queue.tail, delivered := s.delivered ++ [r] }

/-- Reset is asserted: every accepted and unanswered command is discarded, an offered response is withdrawn
(70_reset_and_hazards.md R140). -/
def State.assertReset (s : State) : State := { s with rst := true, queue := [], offered := none }

/-- Reset is released (70_reset_and_hazards.md R140). -/
def State.releaseReset (s : State) : State := { s with rst := false }

end Sys2Proof.Machine
end

