-- ==== Sys2Proof/Machine/Arithmetic.lean ====
section
/-!
DEFINITION. ADD, SUB, MUL, DIV (41_arithmetic.md R65 to R68). For each command: its response as a function of its
operands, and its meaning, which answers with that response.
-/

namespace Sys2Proof.Machine

/-- `ADD a, b`: saturating addition (41_arithmetic.md R65). -/
def addResponse (a b : Word32) : ResponseWord := respondSaturated (signed32 a + signed32 b)

/-- `SUB a, b`: saturating subtraction (41_arithmetic.md R66). -/
def subResponse (a b : Word32) : ResponseWord := respondSaturated (signed32 a - signed32 b)

/-- The product of two raw integers rescaled by `F`, truncating toward zero: the exact product is formed before
anything is dropped (41_arithmetic.md R67). -/
def mulExact (a b : Int) : Int := tdiv (a * b) scale

/-- `MUL a, b` (41_arithmetic.md R67). -/
def mulResponse (a b : Word32) : ResponseWord := respondSaturated (mulExact (signed32 a) (signed32 b))

/-- The quotient of two raw integers prescaled by `F`, truncating toward zero, for `b` not zero (41_arithmetic.md
R68). -/
def divExact (a b : Int) : Int := tdiv (a * scale) b

/-- `DIV a, b`: a zero divisor answers 0 with `DBZ` (41_arithmetic.md R68, 60_exceptions.md R122). -/
def divResponse (a b : Word32) : ResponseWord :=
  if signed32 b = 0 then respond 0 dbzFlags
  else respondSaturated (divExact (signed32 a) (signed32 b))

/-- The meaning of `ADD` (41_arithmetic.md R65). -/
def execAdd (a b : Word32) (s : State) : Host.Outcome State Fault Refusal := answer (addResponse a b) s

/-- The meaning of `SUB` (41_arithmetic.md R66). -/
def execSub (a b : Word32) (s : State) : Host.Outcome State Fault Refusal := answer (subResponse a b) s

/-- The meaning of `MUL` (41_arithmetic.md R67). -/
def execMul (a b : Word32) (s : State) : Host.Outcome State Fault Refusal := answer (mulResponse a b) s

/-- The meaning of `DIV` (41_arithmetic.md R68). -/
def execDiv (a b : Word32) (s : State) : Host.Outcome State Fault Refusal := answer (divResponse a b) s

end Sys2Proof.Machine
end

