-- ==== Sys2Proof/Machine/Angle.lean ====
section
/-!
DEFINITION. TODEG and TORAD (46_angle_units.md R113, R114): one MUL or one DIV with a built-in constant, so they
inherit truncation toward zero and saturation.
-/

namespace Sys2Proof.Machine

/-- `RAD2DEG_RAW`, `fx(180/π)`, the raw 3754936 (46_angle_units.md). -/
def rad2degRaw : Int := 3754936

/-- `TODEG a` (46_angle_units.md R113). -/
def todegResponse (a : Word32) : ResponseWord := respondSaturated (mulExact (signed32 a) rad2degRaw)

/-- `TORAD a` (46_angle_units.md R114). -/
def toradResponse (a : Word32) : ResponseWord := respond (divExact (signed32 a) rad2degRaw) noFlags

/-- The meaning of `TODEG` (46_angle_units.md R113). -/
def execTodeg (a : Word32) (s : State) : Host.Outcome State Fault Refusal := answer (todegResponse a) s

/-- The meaning of `TORAD` (46_angle_units.md R114). -/
def execTorad (a : Word32) (s : State) : Host.Outcome State Fault Refusal := answer (toradResponse a) s

end Sys2Proof.Machine
end

