-- ==== Sys2Proof/Machine/Comparison.lean ====
section
/-!
DEFINITION. LT, LE, GT, GE, EQ (43_comparison.md R85 to R89): the raw integers compared as signed numbers, the verdict
a Bool in the result field (10_state.md R23), never a flag.
-/

namespace Sys2Proof.Machine

/-- The response of a comparison with this verdict: `respond(1 if … else 0, {})` (43_comparison.md R85 to R89). -/
def boolResponse (b : Bool) : ResponseWord := respond (boolRaw b) noFlags

/-- `LT a, b` (43_comparison.md R85). -/
def ltResponse (a b : Word32) : ResponseWord := boolResponse (decide (signed32 a < signed32 b))

/-- `LE a, b` (43_comparison.md R86). -/
def leResponse (a b : Word32) : ResponseWord := boolResponse (decide (signed32 a ≤ signed32 b))

/-- `GT a, b` (43_comparison.md R87). -/
def gtResponse (a b : Word32) : ResponseWord := boolResponse (decide (signed32 a > signed32 b))

/-- `GE a, b` (43_comparison.md R88). -/
def geResponse (a b : Word32) : ResponseWord := boolResponse (decide (signed32 a ≥ signed32 b))

/-- `EQ a, b` (43_comparison.md R89). -/
def eqResponse (a b : Word32) : ResponseWord := boolResponse (decide (signed32 a = signed32 b))

/-- The meaning of `LT` (43_comparison.md R85). -/
def execLt (a b : Word32) (s : State) : Host.Outcome State Fault Refusal := answer (ltResponse a b) s

/-- The meaning of `LE` (43_comparison.md R86). -/
def execLe (a b : Word32) (s : State) : Host.Outcome State Fault Refusal := answer (leResponse a b) s

/-- The meaning of `GT` (43_comparison.md R87). -/
def execGt (a b : Word32) (s : State) : Host.Outcome State Fault Refusal := answer (gtResponse a b) s

/-- The meaning of `GE` (43_comparison.md R88). -/
def execGe (a b : Word32) (s : State) : Host.Outcome State Fault Refusal := answer (geResponse a b) s

/-- The meaning of `EQ` (43_comparison.md R89). -/
def execEq (a b : Word32) (s : State) : Host.Outcome State Fault Refusal := answer (eqResponse a b) s

end Sys2Proof.Machine
end

