-- ==== Sys2Proof/Machine/Conversion.lean ====
section
/-!
DEFINITION. FROMINT and TOINT (40_conversion.md R55, R56), and the contracts of the conversions left to the host, over
exact real numbers (R58, R59).
-/

namespace Sys2Proof.Machine

/-- `FROMINT a`: the operand is an Int32 (40_conversion.md R55, 10_state.md R22). -/
def fromintResponse (a : Word32) : ResponseWord := respondSaturated (signed32 a * scale)

/-- `TOINT a`: truncating toward zero, the result an Int32 (40_conversion.md R56). -/
def tointResponse (a : Word32) : ResponseWord := respond (tdiv (signed32 a) scale) noFlags

/-- The meaning of `FROMINT` (40_conversion.md R55). -/
def execFromint (a : Word32) (s : State) : Host.Outcome State Fault Refusal := answer (fromintResponse a) s

/-- The meaning of `TOINT` (40_conversion.md R56). -/
def execToint (a : Word32) (s : State) : Host.Outcome State Fault Refusal := answer (tointResponse a) s

/-- `from_real(v)`, the contract of `from_float` and `from_double` for whoever implements them beside the FPE; no FPE
command (40_conversion.md R58). -/
def fromReal (v : Rat) : Int × Bool := sat32 (fx v)

/-- `to_real`, the contract of `to_float` and `to_double` where the host's type holds the value exactly; no FPE command
(40_conversion.md R59). -/
def toReal (p : Word32) : Rat := val (signed32 p)

/-- What `to_float` and `to_double` give in a number type that holds the values `holds`: the value itself where the type
holds it, else "the nearest value the type can hold in the direction of zero" (40_conversion.md R59). -/
def toRealInto (holds : Rat → Prop) (p : Word32) (v : Rat) : Prop :=
  holds v ∧ |v| ≤ |toReal p| ∧ 0 ≤ v * toReal p ∧
  ∀ w : Rat, holds w → |w| ≤ |toReal p| → 0 ≤ w * toReal p → |w| ≤ |v|

end Sys2Proof.Machine
end

