-- ==== Sys2Proof/Machine/Rounding.lean ====
section
/-!
DEFINITION. SIGN, ABS, FLOOR, CEIL, ROUND, MOD (42_sign_rounding.md R75 to R80).
-/

namespace Sys2Proof.Machine

/-- The raw integer of the Fixed -1.0, 0.0 or +1.0 (42_sign_rounding.md R75). -/
def signRaw (a : Int) : Int := if a > 0 then scale else if a < 0 then -scale else 0

/-- `SIGN a` (42_sign_rounding.md R75). -/
def signResponse (a : Word32) : ResponseWord := respond (signRaw (signed32 a)) noFlags

/-- `ABS a`: the exact absolute value, then `sat32` (42_sign_rounding.md R76). -/
def absResponse (a : Word32) : ResponseWord :=
  respondSaturated (if signed32 a ≥ 0 then signed32 a else -signed32 a)

/-- A raw integer with its 16 fraction bits cleared, rounding toward minus infinity (42_sign_rounding.md R77). -/
def floorRaw (a : Int) : Int := asr a 16 * scale

/-- `FLOOR a` (42_sign_rounding.md R77). -/
def floorResponse (a : Word32) : ResponseWord := respond (floorRaw (signed32 a)) noFlags

/-- `CEIL a` (42_sign_rounding.md R78). -/
def ceilResponse (a : Word32) : ResponseWord := respondSaturated (floorRaw (signed32 a + 65535))

/-- `ROUND a`: half up (42_sign_rounding.md R79). -/
def roundResponse (a : Word32) : ResponseWord := respondSaturated (floorRaw (signed32 a + 32768))

/-- `MOD a`: `a - floor(a)` (42_sign_rounding.md R80). -/
def modResponse (a : Word32) : ResponseWord := respond (signed32 a - floorRaw (signed32 a)) noFlags

/-- The meaning of `SIGN` (42_sign_rounding.md R75). -/
def execSign (a : Word32) (s : State) : Host.Outcome State Fault Refusal := answer (signResponse a) s

/-- The meaning of `ABS` (42_sign_rounding.md R76). -/
def execAbs (a : Word32) (s : State) : Host.Outcome State Fault Refusal := answer (absResponse a) s

/-- The meaning of `FLOOR` (42_sign_rounding.md R77). -/
def execFloor (a : Word32) (s : State) : Host.Outcome State Fault Refusal := answer (floorResponse a) s

/-- The meaning of `CEIL` (42_sign_rounding.md R78). -/
def execCeil (a : Word32) (s : State) : Host.Outcome State Fault Refusal := answer (ceilResponse a) s

/-- The meaning of `ROUND` (42_sign_rounding.md R79). -/
def execRound (a : Word32) (s : State) : Host.Outcome State Fault Refusal := answer (roundResponse a) s

/-- The meaning of `MOD` (42_sign_rounding.md R80). -/
def execMod (a : Word32) (s : State) : Host.Outcome State Fault Refusal := answer (modResponse a) s

end Sys2Proof.Machine
end

