-- ==== Sys2Proof/Machine/TrigCore.lean ====
section
/-!
DEFINITION. The trigonometric core (44_trig_core.md R93 to R99): phase reduction, the CORDIC iterations in rotation and
vectoring mode, the constants, the rounding of a Q2.30 magnitude to a Fixed one. Every value is an exact integer. The
constants are fixed at design time and are no state (10_state.md R27).
-/

namespace Sys2Proof.Machine

/-- `INV_TWO_PI_Q48`, `2^48 / (2π)` rounded (44_trig_core.md R95). -/
def invTwoPiQ48 : Int := 44798133900177

/-- `KINV_Q30`, the reciprocal CORDIC gain in Q2.30 (44_trig_core.md R95). -/
def kinvQ30 : Int := 652032874

/-- `TWO_PI_Q28`, `2π * 2^28` rounded (44_trig_core.md R95). -/
def twoPiQ28 : Int := 1686629713

/-- `HALF_PI_RAW`, `fx(π/2)` (44_trig_core.md R95). -/
def halfPiRaw : Int := 102944

/-- `PI_RAW`, `fx(π)` (44_trig_core.md R95). -/
def piRaw : Int := 205887

/-- `ATAN_TAB[0..27]`: entry `i` is the angle whose tangent is `2^-i`, as a phase (44_trig_core.md R95). Its length is
`N_ITER = 28`. -/
def atanTab : List Int := [
  536870912, 316933406, 167458907, 85004756, 42667331, 21354465, 10679838,
  5340245, 2670163, 1335087, 667544, 333772, 166886, 83443,
  41722, 20861, 10430, 5215, 2608, 1304, 652,
  326, 163, 81, 41, 20, 10, 5]

/-- `phase_of(a)`: the angle `a` (radians, Q16.16) as a fraction of a turn in units of 2^-32, modulo one turn
(44_trig_core.md R94). -/
def phaseOf (a : Int) : Int := asr (a * invTwoPiQ48) 32 % 4294967296

/-- The quadrant of a phase, `p[31:30]` (44_trig_core.md R94, R99). -/
def quadrantOf (p : Int) : Int := p / 1073741824

/-- The first-quadrant angle of a phase, `p[29:0]` (44_trig_core.md R94, R99). -/
def firstQuadrantOf (p : Int) : Int := p % 1073741824

/-- The vector and the angle a CORDIC iteration works on (44_trig_core.md R96, R97). -/
structure Cordic where
  /-- the horizontal component -/
  x : Int
  /-- the vertical component -/
  y : Int
  /-- the angle: what is still to be turned (rotation) or what has been turned (vectoring) -/
  z : Int
  deriving DecidableEq, Repr

/-- Iteration `i` of `cordic_rotate`, with the table entry `t`: the three assignments are simultaneous and a remaining
angle of zero turns in the positive direction (44_trig_core.md R96). -/
def rotateStep (i : Nat) (t : Int) (v : Cordic) : Cordic :=
  if v.z ≥ 0 then ⟨v.x - asr v.y i, v.y + asr v.x i, v.z - t⟩
  else ⟨v.x + asr v.y i, v.y - asr v.x i, v.z + t⟩

/-- Iteration `i` of `cordic_vector`, with the table entry `t`: a `y` of zero is treated as positive
(44_trig_core.md R97). -/
def vectorStep (i : Nat) (t : Int) (v : Cordic) : Cordic :=
  if v.y ≥ 0 then ⟨v.x + asr v.y i, v.y - asr v.x i, v.z + t⟩
  else ⟨v.x - asr v.y i, v.y + asr v.x i, v.z - t⟩

/-- The iterations of `cordic_rotate` from number `i` on, one for each table entry left (44_trig_core.md R96). -/
def rotateFrom (i : Nat) (table : List Int) (v : Cordic) : Cordic :=
  match table with
  | [] => v
  | t :: rest => rotateFrom (i + 1) rest (rotateStep i t v)

/-- The iterations of `cordic_vector` from number `i` on, one for each table entry left (44_trig_core.md R97). -/
def vectorFrom (i : Nat) (table : List Int) (v : Cordic) : Cordic :=
  match table with
  | [] => v
  | t :: rest => vectorFrom (i + 1) rest (vectorStep i t v)

/-- `cordic_rotate(r)`: the pair `(c30, s30)` of a first-quadrant phase, Q2.30 (44_trig_core.md R96). -/
def cordicRotate (r : Int) : Int × Int :=
  let v := rotateFrom 0 atanTab ⟨kinvQ30, 0, r⟩
  (v.x, v.y)

/-- `cordic_vector(x0, y0)`: the angle of a first-quadrant vector as a signed phase (44_trig_core.md R97). -/
def cordicVector (x0 y0 : Int) : Int := (vectorFrom 0 atanTab ⟨x0, y0, 0⟩).z

/-- `round_q30_to_q16(v)`: 14 bits dropped, rounding half up, clamped to `0 .. 65536` (44_trig_core.md R98). -/
def roundQ30ToQ16 (v : Int) : Int := clamp (asr (v + 8192) 14) 0 65536

/-- What `sincos_parts` gives (44_trig_core.md R99). -/
structure SinCosParts where
  /-- the quadrant, 0 to 3 -/
  q : Int
  /-- the cosine of the first-quadrant angle, Q2.30 -/
  c30 : Int
  /-- the sine of the first-quadrant angle, Q2.30 -/
  s30 : Int
  deriving DecidableEq, Repr

/-- `sincos_parts(a)`, the shared front end of `SIN`, `COS` and `TAN` (44_trig_core.md R99). -/
def sincosParts (a : Int) : SinCosParts :=
  let p := phaseOf a
  let cs := cordicRotate (firstQuadrantOf p)
  ⟨quadrantOf p, cs.1, cs.2⟩

end Sys2Proof.Machine
end

