-- ==== Sys2Proof/Machine/Trig.lean ====
section
/-!
DEFINITION. SIN, COS, TAN, ATAN2 (45_trig_ops.md R105 to R108). Every operand is legal and the four commands are total.
-/

namespace Sys2Proof.Machine

/-- The raw sine of a raw angle: rounding on the first-quadrant magnitudes, the sign afterwards (45_trig_ops.md
R105). -/
def sinRaw (a : Int) : Int :=
  let t := sincosParts a
  let cr := roundQ30ToQ16 t.c30
  let sr := roundQ30ToQ16 t.s30
  if t.q = 0 then sr else if t.q = 1 then cr else if t.q = 2 then -sr else -cr

/-- `SIN a` (45_trig_ops.md R105). -/
def sinResponse (a : Word32) : ResponseWord := respond (sinRaw (signed32 a)) noFlags

/-- The raw cosine of a raw angle (45_trig_ops.md R106). -/
def cosRaw (a : Int) : Int :=
  let t := sincosParts a
  let cr := roundQ30ToQ16 t.c30
  let sr := roundQ30ToQ16 t.s30
  if t.q = 0 then cr else if t.q = 1 then -sr else if t.q = 2 then -cr else sr

/-- `COS a` (45_trig_ops.md R106). -/
def cosResponse (a : Word32) : ResponseWord := respond (cosRaw (signed32 a)) noFlags

/-- `num` of `TAN` (45_trig_ops.md R107). -/
def tanNum (t : SinCosParts) : Int := if t.q = 0 ∨ t.q = 2 then t.s30 else t.c30

/-- `den` of `TAN` (45_trig_ops.md R107). -/
def tanDen (t : SinCosParts) : Int := if t.q = 0 ∨ t.q = 2 then t.c30 else -t.s30

/-- The response of `TAN` for a numerator and a denominator: a zero denominator is an asymptote and saturates by the
sign of the numerator, with `SAT` and without `DBZ` (45_trig_ops.md R107, 60_exceptions.md R122). -/
def tanQuotient (num den : Int) : ResponseWord :=
  if den = 0 then respond (if num ≥ 0 then maxRaw else minRaw) (satFlags true)
  else respondSaturated (tdiv (num * scale) den)

/-- `TAN a` (45_trig_ops.md R107). -/
def tanResponse (a : Word32) : ResponseWord :=
  let t := sincosParts (signed32 a)
  tanQuotient (tanNum t) (tanDen t)

/-- The normalising shift of `ATAN2`: the number of leading zeros of `max(ax, ay)` in 32 bits (45_trig_ops.md
R108). -/
def atanShift (ax ay : Nat) : Nat := 31 - Nat.log2 (max ax ay)

/-- The first-quadrant angle of the vector (`ax`, `ay`), neither zero, as a phase clamped to `0 .. 2^30`
(45_trig_ops.md R108). -/
def atanAngle (ax ay : Nat) : Int :=
  let n := atanShift ax ay
  clamp (cordicVector (shiftLeft ax n) (shiftLeft ay n)) 0 1073741824

/-- A phase in `0 .. 2^31` as radians Q16.16, rounded to nearest (45_trig_ops.md R108). -/
def phaseToRadians (m : Int) : Int := asr (m * twoPiQ28 + 8796093022208) 44

/-- The angle of the vector (`xv`, `yv`) off the axes (45_trig_ops.md R108). -/
def atanOffAxis (yv xv : Int) : Int :=
  let z := atanAngle xv.natAbs yv.natAbs
  let m := if xv < 0 then 2147483648 - z else z
  let rad := phaseToRadians m
  if yv < 0 then -rad else rad

/-- The raw angle of the vector (`xv`, `yv`): 0 at the origin, exact constants on the axes, the CORDIC off them
(45_trig_ops.md R108). -/
def atan2Raw (yv xv : Int) : Int :=
  if xv = 0 ∧ yv = 0 then 0
  else if xv = 0 then (if yv > 0 then halfPiRaw else -halfPiRaw)
  else if yv = 0 then (if xv > 0 then 0 else piRaw)
  else atanOffAxis yv xv

/-- `ATAN2 a, b`: `a` is y, `b` is x (45_trig_ops.md R108, 30_encoding.md R42). -/
def atan2Response (a b : Word32) : ResponseWord := respond (atan2Raw (signed32 a) (signed32 b)) noFlags

/-- The meaning of `SIN` (45_trig_ops.md R105). -/
def execSin (a : Word32) (s : State) : Host.Outcome State Fault Refusal := answer (sinResponse a) s

/-- The meaning of `COS` (45_trig_ops.md R106). -/
def execCos (a : Word32) (s : State) : Host.Outcome State Fault Refusal := answer (cosResponse a) s

/-- The meaning of `TAN` (45_trig_ops.md R107). -/
def execTan (a : Word32) (s : State) : Host.Outcome State Fault Refusal := answer (tanResponse a) s

/-- The meaning of `ATAN2` (45_trig_ops.md R108). -/
def execAtan2 (a b : Word32) (s : State) : Host.Outcome State Fault Refusal := answer (atan2Response a b) s

end Sys2Proof.Machine
end

