-- ==== Sys2Proof/Machine/Dispatch.lean ====
section
/-!
DEFINITION. One arm per command (30_encoding.md R44): each calls its meaning.
-/

namespace Sys2Proof.Machine

/-- What each command does. -/
def exec (i : Instr) (s : State) : Host.Outcome State Fault Refusal :=
  match i with
  | .add a b => Sys2Proof.Machine.execAdd a b s
  | .sub a b => Sys2Proof.Machine.execSub a b s
  | .mul a b => Sys2Proof.Machine.execMul a b s
  | .div a b => Sys2Proof.Machine.execDiv a b s
  | .sign a => Sys2Proof.Machine.execSign a s
  | .abs a => Sys2Proof.Machine.execAbs a s
  | .floor a => Sys2Proof.Machine.execFloor a s
  | .ceil a => Sys2Proof.Machine.execCeil a s
  | .round a => Sys2Proof.Machine.execRound a s
  | .mod a => Sys2Proof.Machine.execMod a s
  | .lt a b => Sys2Proof.Machine.execLt a b s
  | .le a b => Sys2Proof.Machine.execLe a b s
  | .gt a b => Sys2Proof.Machine.execGt a b s
  | .ge a b => Sys2Proof.Machine.execGe a b s
  | .eq a b => Sys2Proof.Machine.execEq a b s
  | .sin a => Sys2Proof.Machine.execSin a s
  | .cos a => Sys2Proof.Machine.execCos a s
  | .tan a => Sys2Proof.Machine.execTan a s
  | .atan2 a b => Sys2Proof.Machine.execAtan2 a b s
  | .todeg a => Sys2Proof.Machine.execTodeg a s
  | .torad a => Sys2Proof.Machine.execTorad a s
  | .fromint a => Sys2Proof.Machine.execFromint a s
  | .toint a => Sys2Proof.Machine.execToint a s

end Sys2Proof.Machine
end

