-- ==== Sys2Proof/Machine/Agents.lean ====
section
/-!
DEFINITION. The moves of the two kinds of agent and of the reset wire (00_scope.md R8, 30_encoding.md R49,
70_reset_and_hazards.md R140), put together into what one step of the machine does.
-/

namespace Sys2Proof.Machine

/-- The FPE's one kind of step: it answers the oldest accepted command with its own response, an unassigned opcode with
`ILL`; with nothing to answer it waits (00_scope.md R8, 30_encoding.md R43, R45). -/
def answerOldest (s : State) : Host.Outcome State Fault Refusal :=
  match s.oldest with
  | none => .next s
  | some c =>
    match decode c with
    | .ok i => exec i s
    | .error _ => answerIllegal s

/-- One move of an agent (30_encoding.md R49, 70_reset_and_hazards.md R140). -/
def applyInput (i : Input) (s : State) : Host.Outcome State Fault Refusal :=
  match i with
  | .submit c => .next (s.submit c)
  | .withdraw => .next s.withdraw
  | .fpe => answerOldest s
  | .take => .next s.take
  | .assertReset => .next s.assertReset
  | .releaseReset => .next s.releaseReset

/-- What happens when no agent's move is listed: the host takes the response being offered, else the FPE answers the
oldest command (log entry 1). -/
def runOn (s : State) : Host.Outcome State Fault Refusal :=
  match s.offered with
  | some _ => .next s.take
  | none => answerOldest s

/-- One step of the machine: a submitted command is accepted at once where the queue has room (30_encoding.md R49
item 1), before any agent moves again; else the next listed move happens; else the machine runs on. -/
def advance (s : State) : Host.Outcome State Fault Refusal :=
  match s.acceptable with
  | some c => .next (s.accept c)
  | none =>
    match s.inputs with
    | i :: rest => applyInput i { s with inputs := rest }
    | [] => runOn s

/-- The state in which the very next step answers the command `c`: it is the oldest accepted command, reset is
released, no response is offered, no command waits to be accepted and no move is listed (log entry 4). -/
def State.withOldest (s : State) (c : CommandWord) : State :=
  { s with rst := false, waiting := none, queue := c :: s.queue.tail, offered := none, inputs := [] }

end Sys2Proof.Machine
end

