-- ==== Sys2Proof/Machine/Step.lean ====
section
/-!
DEFINITION. The step of the machine (00_scope.md R8), and how a command is placed where the next step reads it.
-/

namespace Sys2Proof.Machine

/-- One step of the machine: total, in a next state always (30_encoding.md R43, 60_exceptions.md R120). -/
def step : State → Host.Outcome State Fault Refusal := advance

/-- The state with the command of spec/opcode_table.json's numbering placed as the oldest accepted command, so that the
next step answers exactly it (log entry 4). -/
def State.withFetchWord (s : State) (nbits w : Nat) : State := s.withOldest (tableCommandWord nbits w)

end Sys2Proof.Machine
end

