-- ==== Sys2Proof/Machine/Respond.lean ====
section
/-!
DEFINITION. The FPE as the pure total function the spec names `exec : Command -> Response` (00_scope.md R7,
30_encoding.md R43), in terms of which the claims about the machine speak. Sys2Proof/Laws/Meanings.lean proves that the
meanings of Machine/Dispatch.lean answer with it.
-/

namespace Sys2Proof.Machine

/-- The response to a command (30_encoding.md R44, column "rule"). -/
def respondInstr (i : Instr) : ResponseWord :=
  match i with
  | .add a b => addResponse a b
  | .sub a b => subResponse a b
  | .mul a b => mulResponse a b
  | .div a b => divResponse a b
  | .sign a => signResponse a
  | .abs a => absResponse a
  | .floor a => floorResponse a
  | .ceil a => ceilResponse a
  | .round a => roundResponse a
  | .mod a => modResponse a
  | .lt a b => ltResponse a b
  | .le a b => leResponse a b
  | .gt a b => gtResponse a b
  | .ge a b => geResponse a b
  | .eq a b => eqResponse a b
  | .sin a => sinResponse a
  | .cos a => cosResponse a
  | .tan a => tanResponse a
  | .atan2 a b => atan2Response a b
  | .todeg a => todegResponse a
  | .torad a => toradResponse a
  | .fromint a => fromintResponse a
  | .toint a => tointResponse a

/-- `exec(cmd)` of the spec: defined for every command word (30_encoding.md R43, R45). -/
def respondWord (c : CommandWord) : ResponseWord :=
  match decode c with
  | .ok i => respondInstr i
  | .error _ => illegalResponse

end Sys2Proof.Machine
end

