-- ==== Sys2Proof/Script.lean ====
section
/-!
DEFINITION. The command script of 30_encoding.md R48, as data: what a host writes to have commands run one after the
other. It is host-side notation and no part of the FPE. Its text is read in Sys2Proof/Machine/ScriptText.lean, its checks
are in Sys2Proof/WellFormed.lean, its assembly and its run in Sys2Proof/Machine/ScriptRun.lean.
-/

namespace Sys2Proof

/-- An operand of a script line (30_encoding.md R48). -/
inductive ScriptOperand where
  /-- a hexadecimal pattern: the pattern itself -/
  | hex (pattern : Word32)
  /-- a Fixed literal, a decimal number with a point: `mantissa` divided by ten to the number of places after the
  point, so `2.5` is `fixedLiteral 25 1` -/
  | fixedLiteral (mantissa : Int) (places : Nat)
  /-- an integer literal, `#` and a decimal integer -/
  | intLiteral (n : Int)
  /-- a reference, `%` and a name: the `y` field of the response to the earlier line labelled so -/
  | reference (name : String)
  deriving DecidableEq, Repr

/-- One line of a script, `[name =] MNEMONIC operand [, operand]` (30_encoding.md R48). -/
structure ScriptLine where
  /-- the label of the line's response, if it has one -/
  label : Option String
  /-- one of the 23 mnemonics of R44 -/
  mnemonic : String
  /-- the operands, `a` first -/
  operands : List ScriptOperand
  deriving DecidableEq, Repr

end Sys2Proof
end

