-- ==== Sys2Proof/WellFormed.lean ====
section
/-!
DEFINITION. What is well-formed. A command has nothing to check beyond its types: each operand is a full 32-bit
pattern, all 2^32 of them legal (10_state.md R21, 30_encoding.md R42), and no value of an ignored field is illegal. A
command WORD is assigned or not (R44, R45). A script line is well-formed or not by the conditions of R48.
-/

namespace Sys2Proof

/-- Every command is well-formed: R42 and R46 leave no operand value illegal and no command bit reserved. -/
def Instr.wellFormed (_i : Instr) : Bool := true

/-- A command word whose opcode is one of the 23 assigned ones (30_encoding.md R44); of any other word the machine
answers `ILL` (R45). -/
def commandAssigned (c : CommandWord) : Bool := (findRow (opField c)).isSome

/-- The row of the opcode map with this mnemonic (30_encoding.md R44). -/
def findMnemonic (m : String) : Option OpcodeRow := opcodeTable.find? fun row => row.mnemonic == m

/-- `MIN <= n <= MAX` (30_encoding.md R48: a literal outside makes the script ill-formed). -/
def inRange (n : Int) : Bool := decide (Machine.minRaw ≤ n) && decide (n ≤ Machine.maxRaw)

/-- The real value of a Fixed literal (30_encoding.md R48). -/
def literalValue (mantissa : Int) (places : Nat) : Rat := (mantissa : Rat) / ((10 ^ places : Nat) : Rat)

/-- An operand is well-formed after lines with these labels: a literal fits 32 bits, a reference names an earlier line
(30_encoding.md R48). -/
def ScriptOperand.wellFormed (labels : List String) (o : ScriptOperand) : Bool :=
  match o with
  | .hex _ => true
  | .fixedLiteral m p => inRange (Machine.fx (literalValue m p))
  | .intLiteral n => inRange n
  | .reference name => labels.contains name

/-- How many operands a mnemonic's line takes (30_encoding.md R48: one or two as R44 says). -/
def Arity.count (n : Arity) : Nat :=
  match n with
  | .one => 1
  | .two => 2

/-- A line is well-formed after lines with these labels: a mnemonic of R44, as many operands as R44 gives it, each
well-formed, and a label no earlier line has (30_encoding.md R48). DEDUCED: labels are distinct, since a reference
names "the earlier line labelled" so (log entry 7). -/
def ScriptLine.wellFormed (labels : List String) (l : ScriptLine) : Bool :=
  (match findMnemonic l.mnemonic with
    | some row => decide (l.operands.length = row.arity.count)
    | none => false)
  && l.operands.all (ScriptOperand.wellFormed labels)
  && (match l.label with
    | some name => !labels.contains name
    | none => true)

/-- A script is well-formed after lines with these labels (30_encoding.md R48). -/
def scriptWellFormed (labels : List String) (lines : List ScriptLine) : Bool :=
  match lines with
  | [] => true
  | l :: rest => l.wellFormed labels && scriptWellFormed (l.label.toList ++ labels) rest

end Sys2Proof
end

