-- ==== Sys2Proof/Machine/ScriptRun.lean ====
section
/-!
DEFINITION. What a command script denotes (30_encoding.md R48): the command word each line assembles to and the
responses a host receives when it submits them one after the other, the run being over with the last response
(70_reset_and_hazards.md R145). Host-side: no part of the FPE.
-/

namespace Sys2Proof.Machine

/-- The 32-bit pattern an operand denotes, given the `y` fields of the labelled responses so far (30_encoding.md
R48). `assembleLine` asks it of well-formed lines only, whose literals lie in `MIN..MAX`. -/
def operandPattern (env : List (String × Word32)) (o : ScriptOperand) : Option Word32 :=
  match o with
  | .hex p => some p
  | .fixedLiteral m p => some (bits32 (fx (literalValue m p)))
  | .intLiteral n => some (bits32 n)
  | .reference name => env.lookup name

/-- The command word of a line whose mnemonic and operands are well-formed: a one-operand command has `bfield = 0`
(30_encoding.md R48). -/
def lineWord (env : List (String × Word32)) (l : ScriptLine) : Option CommandWord :=
  match findMnemonic l.mnemonic, l.operands with
  | some row, [x] =>
    match row.arity, operandPattern env x with
    | .one, some a => some (commandWord row.op a 0)
    | _, _ => none
  | some row, [x, y] =>
    match row.arity, operandPattern env x, operandPattern env y with
    | .two, some a, some b => some (commandWord row.op a b)
    | _, _, _ => none
  | _, _ => none

/-- The command word of a line after the labelled results so far. DESIGN CHOICE: an ill-formed line, one with a literal
outside `MIN..MAX` among them, assembles to nothing; the spec says only that the script is ill-formed (30_encoding.md
R48, log entry 16). -/
def assembleLine (env : List (String × Word32)) (l : ScriptLine) : Option CommandWord :=
  if l.wellFormed (env.map Prod.fst) then lineWord env l else none

/-- The labelled results after a line has been answered: the `y` field only, its flags are not carried (30_encoding.md
R48). -/
def bindResult (env : List (String × Word32)) (l : ScriptLine) (r : ResponseWord) : List (String × Word32) :=
  match l.label with
  | some name => (name, resultField r) :: env
  | none => env

/-- The responses of a script's lines in order (30_encoding.md R48, R49). DESIGN CHOICE: an ill-formed script, in which
some line does not assemble, has no responses at all (log entry 16). -/
def runScript (env : List (String × Word32)) (lines : List ScriptLine) : Option (List ResponseWord) :=
  match lines with
  | [] => some []
  | l :: rest =>
    match assembleLine env l with
    | none => none
    | some c =>
      match runScript (bindResult env l (respondWord c)) rest with
      | none => none
      | some rs => some (respondWord c :: rs)

end Sys2Proof.Machine
end

