-- ==== Sys2Proof/Safety.lean ====
section
/-!
DEFINITION. The terms claims are stated in: what a response word says, what truncation toward zero means (00_scope.md
R11), which commands may raise which flag (60_exceptions.md R125), and the invariant of the interface state
(10_state.md R26, 30_encoding.md R49, 70_reset_and_hazards.md R140).
-/

namespace Sys2Proof.Safety

open Sys2Proof.Machine

/-- A response word says: the result field, read as a signed integer, is `y`; the three flags are as given; the
reserved bits are 0 (30_encoding.md R41). -/
def Reads (r : ResponseWord) (y : Int) (sat dbz ill : Bool) : Prop :=
  (resultField r).toInt = y ∧ satBit r = sat ∧ dbzBit r = dbz ∧ illBit r = ill ∧ reservedField r = 0

/-- A response word says that the exact result was `v`, under the one overflow policy of 10_state.md R25: above the
range the largest value with `SAT`, below it the smallest with `SAT`, inside it `v` itself without a flag. -/
def ReadsSaturated (r : ResponseWord) (v : Int) : Prop :=
  (v > 2147483647 → Reads r 2147483647 true false false) ∧
  (v < -2147483648 → Reads r (-2147483648) true false false) ∧
  (-2147483648 ≤ v ∧ v ≤ 2147483647 → Reads r v false false false)

/-- `q` is `n` divided by `d`, truncated toward zero: `n = q * d + rem` with `|rem| < |d|` and `rem` zero or of the sign
of `n` (00_scope.md R11). -/
def TruncatesTo (n d q : Int) : Prop :=
  ∃ rem : Int, n = q * d + rem ∧ rem.natAbs < d.natAbs ∧ (rem = 0 ∨ (0 < rem ∧ 0 < n) ∨ (rem < 0 ∧ n < 0))

/-- The commands whose exact result can leave the range, and so can set `SAT` (10_state.md R25, 60_exceptions.md
R125). -/
def mayOverflow (i : Instr) : Bool :=
  match i with
  | .add _ _ => true
  | .sub _ _ => true
  | .mul _ _ => true
  | .div _ _ => true
  | .sign _ => false
  | .abs _ => true
  | .floor _ => false
  | .ceil _ => true
  | .round _ => true
  | .mod _ => false
  | .lt _ _ => false
  | .le _ _ => false
  | .gt _ _ => false
  | .ge _ _ => false
  | .eq _ _ => false
  | .sin _ => false
  | .cos _ => false
  | .tan _ => true
  | .atan2 _ _ => false
  | .todeg _ => true
  | .torad _ => false
  | .fromint _ => true
  | .toint _ => false

/-- The invariant of the interface: the queue holds at most `FPE_MAX_OUTSTANDING` commands (10_state.md R26); a
response being offered is the one `exec` gives the oldest accepted command (30_encoding.md R49 items 3 to 5); while
reset is asserted nothing is queued and nothing offered (70_reset_and_hazards.md R140). -/
structure Inv (s : State) : Prop where
  /-- 10_state.md R26 -/
  bounded : s.queue.length ≤ Config.maxOutstanding
  /-- 30_encoding.md R49 items 3 to 5 -/
  offeredAnswersOldest : ∀ r, s.offered = some r → s.queue.head?.map respondWord = some r
  /-- 70_reset_and_hazards.md R140 -/
  idleUnderReset : s.rst = true → s.queue = [] ∧ s.offered = none

/-- A response word as command set 1.0 makes it: reserved bits 0 and at most one flag (30_encoding.md R46,
60_exceptions.md R126). -/
def ResponseFormed (r : ResponseWord) : Prop :=
  reservedField r = 0 ∧ (flagByte r = 0x00 ∨ flagByte r = 0x01 ∨ flagByte r = 0x02 ∨ flagByte r = 0x04)

/-- `k` steps of the machine, as the host's interface runs it. -/
def steps (k : Nat) (s : State) : Host.Outcome State Fault Refusal := core.run k s

/-- The machine is idle and nothing is to come but what is in `inputs`: the end of a run (70_reset_and_hazards.md
R145). -/
def Idle (s : State) : Prop := s.rst = false ∧ s.waiting = none ∧ s.queue = [] ∧ s.offered = none

end Sys2Proof.Safety
end

