-- ==== Sys2Proof/Certificates/Slice0/Obligations.lean ====
section
/-!
DEFINITION. The statements for the provers. Each docstring names the rule of spec/ the statement formalises.
-/

open Sys2Proof Sys2Proof.Machine Sys2Proof.Safety

/-! ## Encoding -/

/-- 30_encoding.md R40, R44, R48: decoding the word the encoder makes of a command gives the command back, for every
command and every operand value (every command is well-formed, R42). -/
def Obligations.DecodeEncodeAgree : Prop :=
  ∀ i : Instr, i.wellFormed = true → decode (encode i) = .ok i

/-- 95_test_vectors.md section 2 and the rules' own examples: command words written out from R40 and R44 decode to the
command they stand for. -/
def Obligations.SampleWordsDecode : Prop :=
  decode 0x000001000000028000#72 = .ok (.add 0x00010000#32 0x00028000#32) ∧
  decode 0x0300010000FFFD0000#72 = .ok (.div 0x00010000#32 0xFFFD0000#32) ∧
  decode 0x1400028000DEADBEEF#72 = .ok (.round 0x00028000#32) ∧
  decode 0x20FFFFFFFF00000000#72 = .ok (.lt 0xFFFFFFFF#32 0x00000000#32) ∧
  decode 0x330000000300000007#72 = .ok (.atan2 0x00000003#32 0x00000007#32) ∧
  decode 0x3500B4000000000000#72 = .ok (.torad 0x00B40000#32) ∧
  decode 0x41FFFD800000000001#72 = .ok (.toint 0xFFFD8000#32) ∧
  decode 0xFF123456789ABCDEF0#72 = .error (.unassigned 0xFF#8)

/-- 30_encoding.md R40: the number a command word is, and that the three fields read back what was put in. -/
def Obligations.CommandWordIsItsFields : Prop :=
  ∀ (op : Opcode) (a b : Word32),
    (commandWord op a b).toNat = op.toNat * 2 ^ 64 + a.toNat * 2 ^ 32 + b.toNat ∧
    opField (commandWord op a b) = op ∧ aField (commandWord op a b) = a ∧ bField (commandWord op a b) = b

/-- 30_encoding.md R41: the number a response word is: `flags * 2^32 + y` with `flags = ILL * 4 + DBZ * 2 + SAT`, `y`
the pattern whose signed reading is `v`. -/
def Obligations.ResponseWordIsItsFields : Prop :=
  ∀ (v : Int) (f : Flags), -2147483648 ≤ v → v ≤ 2147483647 →
    (respond v f).toNat =
      (f.ill.toNat * 4 + f.dbz.toNat * 2 + f.sat.toNat) * 2 ^ 32 + (resultField (respond v f)).toNat ∧
    Reads (respond v f) v f.sat f.dbz f.ill

/-- 30_encoding.md R44: the whole opcode map, with a one-operand command reading `a` only whatever `bfield` holds
(R42). -/
def Obligations.OpcodeMapDecodes : Prop :=
  ∀ a b : Word32,
    (decode (commandWord 0x00 a b) = .ok (.add a b) ∧ decode (commandWord 0x01 a b) = .ok (.sub a b) ∧
     decode (commandWord 0x02 a b) = .ok (.mul a b) ∧ decode (commandWord 0x03 a b) = .ok (.div a b)) ∧
    (decode (commandWord 0x10 a b) = .ok (.sign a) ∧ decode (commandWord 0x11 a b) = .ok (.abs a) ∧
     decode (commandWord 0x12 a b) = .ok (.floor a) ∧ decode (commandWord 0x13 a b) = .ok (.ceil a) ∧
     decode (commandWord 0x14 a b) = .ok (.round a) ∧ decode (commandWord 0x15 a b) = .ok (.mod a)) ∧
    (decode (commandWord 0x20 a b) = .ok (.lt a b) ∧ decode (commandWord 0x21 a b) = .ok (.le a b) ∧
     decode (commandWord 0x22 a b) = .ok (.gt a b) ∧ decode (commandWord 0x23 a b) = .ok (.ge a b) ∧
     decode (commandWord 0x24 a b) = .ok (.eq a b)) ∧
    (decode (commandWord 0x30 a b) = .ok (.sin a) ∧ decode (commandWord 0x31 a b) = .ok (.cos a) ∧
     decode (commandWord 0x32 a b) = .ok (.tan a) ∧ decode (commandWord 0x33 a b) = .ok (.atan2 a b) ∧
     decode (commandWord 0x34 a b) = .ok (.todeg a) ∧ decode (commandWord 0x35 a b) = .ok (.torad a)) ∧
    (decode (commandWord 0x40 a b) = .ok (.fromint a) ∧ decode (commandWord 0x41 a b) = .ok (.toint a))

/-- 30_encoding.md R44, R45: a command word is rejected, by the name of its opcode, exactly when its opcode lies in the
ranges R45 lists; there are 233 such opcodes; and each of them answers the word `0x04_00000000`, whatever its operand
fields hold. -/
def Obligations.UnassignedOpcodesAnswerIll : Prop :=
  (∀ c : CommandWord,
    decode c = .error (.unassigned (opField c)) ↔
      ((0x04 ≤ (opField c).toNat ∧ (opField c).toNat ≤ 0x0F) ∨ (0x16 ≤ (opField c).toNat ∧ (opField c).toNat ≤ 0x1F) ∨
       (0x25 ≤ (opField c).toNat ∧ (opField c).toNat ≤ 0x2F) ∨ (0x36 ≤ (opField c).toNat ∧ (opField c).toNat ≤ 0x3F) ∨
       0x42 ≤ (opField c).toNat)) ∧
  ((List.range 256).filter fun n => (findRow (BitVec.ofNat 8 n)).isNone).length = 233 ∧
  (∀ c : CommandWord, commandAssigned c = false → respondWord c = 0x0400000000#40)

/-- 30_encoding.md R42, R43: what a decoded command was read from: its opcode is the word's `op`, its operands the
word's fields, a one-operand command having 0 in place of the ignored `bfield`. -/
def Obligations.DecodedCommandHasTheWordsFields : Prop :=
  ∀ (c : CommandWord) (i : Instr), decode c = .ok i →
    opcodeOf i = opField c ∧ (operandsOf i).1 = aField c ∧
    ((operandsOf i).2 = bField c ∨ ((operandsOf i).2 = 0 ∧ ∀ b : Word32, decode (commandWord (opField c) (aField c) b) = .ok i))

/-- 30_encoding.md R42: a one-operand command ignores `bfield` completely: every value of it gives the same
response. -/
def Obligations.OneOperandCommandsIgnoreSecondField : Prop :=
  ∀ (row : OpcodeRow), row ∈ opcodeTable → row.arity = .one →
    ∀ a b b' : Word32, respondWord (commandWord row.op a b) = respondWord (commandWord row.op a b')

/-! ## The step and the interface -/

/-- 00_scope.md R8, 30_encoding.md R43: where the FPE is to move (reset released, no submitted command it can accept,
no other agent's move listed, no response already offered) and the oldest accepted command decodes to `i`, the step is
exactly `exec` of `i`; where the FPE's own move is listed, it is `exec` of `i` with that move taken off the list. The
list of moves, and what happens when none is listed, are the model's choice (log entry 1). -/
def Obligations.StepRunsDecodedCommand : Prop :=
  ∀ (s : State) (c : CommandWord) (rest : List CommandWord) (i : Instr),
    s.rst = false → s.acceptable = none → s.offered = none → s.queue = c :: rest → decode c = .ok i →
    (s.inputs = [] → step s = exec i s) ∧
    (∀ later, s.inputs = .fpe :: later → step s = exec i { s with inputs := later })

/-- 30_encoding.md R45, 60_exceptions.md R123: in the same place, a command with an unassigned opcode is answered with
`0x04_00000000`, nothing else changes, and the machine goes on. The list of moves is the model's choice (log entry 1).
-/
def Obligations.StepAnswersUnassignedOpcode : Prop :=
  ∀ (s : State) (c : CommandWord) (rest : List CommandWord) (op : Opcode),
    s.rst = false → s.acceptable = none → s.offered = none → s.queue = c :: rest → decode c = .error (.unassigned op) →
    (s.inputs = [] → step s = .next { s with offered := some 0x0400000000#40 }) ∧
    (∀ later, s.inputs = .fpe :: later → step s = .next { s with inputs := later, offered := some 0x0400000000#40 })

/-- 30_encoding.md R43, 60_exceptions.md R120: no state stops the machine: every step ends in a next state. -/
def Obligations.EveryStepGoesOn : Prop :=
  ∀ s : State, ∃ t, step s = .next t

/-- 10_state.md R20, R24, 60_exceptions.md R120: the frame of all 23 commands: answering changes the offered response
and nothing else: not the reset input, a submitted command, the queue, what was delivered, or the moves to come. -/
def Obligations.CommandsChangeOnlyTheOfferedResponse : Prop :=
  ∀ (i : Instr) (s t : State), exec i s = .next t →
    t.rst = s.rst ∧ t.waiting = s.waiting ∧ t.queue = s.queue ∧ t.delivered = s.delivered ∧ t.inputs = s.inputs ∧
    t.offered.isSome = true

/-- 00_scope.md R7, 30_encoding.md R43, R49 item 5: the pure function `respondWord` is what the machine answers with: a
command decoding to `i` has the response `exec` of `i` offers, in every state. -/
def Obligations.MachineAnswersWithThePureFunction : Prop :=
  ∀ (c : CommandWord) (i : Instr) (s : State), decode c = .ok i → exec i s = .next { s with offered := some (respondWord c) }

/-- 70_reset_and_hazards.md R140, 10_state.md R28: after reset the machine is idle and accepts commands: reset is
released, the queue is empty, no response is offered, and a submitted command is accepted. -/
def Obligations.ResetLeavesTheMachineIdle : Prop :=
  State.reset.rst = false ∧ State.reset.queue = [] ∧ State.reset.offered = none ∧
  ∀ c : CommandWord, (State.reset.submit c).acceptable = some c

/-- 10_state.md R26, 30_encoding.md R49, 70_reset_and_hazards.md R140: the interface invariant holds at reset. -/
def Obligations.InterfaceInvariantAtReset : Prop := Inv State.reset

/-- 10_state.md R26, 30_encoding.md R49, 70_reset_and_hazards.md R140: every step keeps the interface invariant: the
queue never exceeds its bound, an offered response is the oldest command's own, nothing is queued or offered under
reset. -/
def Obligations.StepKeepsInterfaceInvariant : Prop :=
  ∀ s t : State, Inv s → step s = .next t → Inv t

/-- 30_encoding.md R46, 60_exceptions.md R126: every step keeps: each response ever delivered has reserved bits 0 and
at most one flag. The record of what was delivered is the model's own (log entry 2). -/
def Obligations.DeliveredResponsesStayFormed : Prop :=
  ∀ s t : State, Inv s → (∀ r ∈ s.delivered, ResponseFormed r) → step s = .next t → ∀ r ∈ t.delivered, ResponseFormed r

/-- 20_memory.md R35, 30_encoding.md R49 items 1 to 6: in one step the queue and the record of delivered responses
change in one of four ways only: not at all; by accepting the submitted command as the newest; by delivering exactly
one response, which is `exec` of the oldest command, that command leaving; by a reset emptying the queue. The record
of delivered responses is the model's own (log entry 2). -/
def Obligations.QueueChangesOnlyByTheContract : Prop :=
  ∀ s t : State, Inv s → step s = .next t →
    (t.queue = s.queue ∧ t.delivered = s.delivered) ∨
    (∃ c, s.waiting = some c ∧ s.rst = false ∧ s.queue.length < Config.maxOutstanding ∧
      t.queue = s.queue ++ [c] ∧ t.waiting = none ∧ t.delivered = s.delivered) ∨
    (∃ c rest, s.queue = c :: rest ∧ t.queue = rest ∧ t.delivered = s.delivered ++ [respondWord c]) ∨
    (t.rst = true ∧ t.queue = [] ∧ t.delivered = s.delivered)

/-- 30_encoding.md R49 items 3 to 5, 70_reset_and_hazards.md R144, R145: from every state that meets the invariant,
with reset released and no move listed, every accepted command is answered within two steps each, exactly one response
per command, in the order of acceptance, each `exec` of its own command; the queue is then empty. That answering and
taking alternate when no move is listed, so two steps a command, is the model's choice (log entries 1 and 2). -/
def Obligations.AcceptedCommandsAreAnsweredInOrder : Prop :=
  ∀ s : State, Inv s → s.rst = false → s.waiting = none → s.inputs = [] →
    steps (2 * s.queue.length) s =
      .next { s with queue := [], offered := none, delivered := s.delivered ++ s.queue.map respondWord }

/-- 30_encoding.md R43, R49, 70_reset_and_hazards.md R140, R145: one command from end to end: in any idle state with
just the host's submission of `c` to come, four steps submit, accept, answer and deliver it; the host has exactly one
more response, `exec` of `c`, and the machine is idle again. And a listed taking of the response by the host delivers
exactly the offered one, the oldest command leaving the queue, or, where none is offered, does nothing. The list of
moves, the four steps and the record of delivered responses are the model's choice (log entries 1 and 2). -/
def Obligations.SubmittedCommandIsAnswered : Prop :=
  (∀ (s : State) (c : CommandWord), Idle s → s.inputs = [.submit c] →
    steps 4 s = .next { s with inputs := [], delivered := s.delivered ++ [respondWord c] }) ∧
  (∀ (s : State) (later : List Input), s.acceptable = none → s.inputs = .take :: later →
    (∀ r, s.rst = false → s.offered = some r →
      step s = .next { s with offered := none, queue := s.queue.tail, delivered := s.delivered ++ [r], inputs := later }) ∧
    (s.offered = none → step s = .next { s with inputs := later }))

/-- 00_scope.md R7, 20_memory.md R35: the response offered depends on the command alone: two states, whatever else
they hold, in which the FPE is to answer the same command offer the same response. That the FPE moves when no move is
listed is the model's choice (log entry 1). -/
def Obligations.ResponseDependsOnTheCommandOnly : Prop :=
  ∀ (s s' : State) (c : CommandWord), s.oldest = some c → s'.oldest = some c →
    s.acceptable = none → s'.acceptable = none → s.inputs = [] → s'.inputs = [] →
    ∃ r t t', step s = .next t ∧ step s' = .next t' ∧ t.offered = some r ∧ t'.offered = some r

/-- 70_reset_and_hazards.md R140: asserting reset discards every accepted and unanswered command and withdraws an
offered response; nothing is delivered; a submitted command not yet accepted is the host's and stays; releasing it
leaves the queue empty, and accepting resumes. That a submitted command outlives the reset is the model's choice (log
entry 3). -/
def Obligations.ResetDiscardsUnansweredCommands : Prop :=
  ∀ (s : State) (later : List Input), s.acceptable = none → s.inputs = .assertReset :: .releaseReset :: later →
    steps 2 s = .next { s with rst := false, queue := [], offered := none, inputs := later }

/-- 70_reset_and_hazards.md R140: while reset is asserted the FPE accepts no command and delivers no response. The
record of delivered responses is the model's own (log entry 2). -/
def Obligations.NothingMovesUnderReset : Prop :=
  ∀ s t : State, Inv s → s.rst = true → step s = .next t →
    t.queue = [] ∧ t.offered = none ∧ t.delivered = s.delivered

/-- 30_encoding.md R49 items 1, 2 and 4: a submitted command is accepted at once, as the newest of the queue, whenever
reset is released and the queue holds fewer than `FPE_MAX_OUTSTANDING` commands, whatever move is listed next; while
the queue is full it is not accepted: the step leaves the queue as it is, or delivers the oldest command's offered
response, or is a reset that empties the queue. That acceptance comes before any listed move is read from "at once"
(log entry 5). -/
def Obligations.AcceptedAtOnceUnlessFull : Prop :=
  ∀ (s : State) (c : CommandWord), s.rst = false → s.waiting = some c →
    (s.queue.length < Config.maxOutstanding → step s = .next { s with waiting := none, queue := s.queue ++ [c] }) ∧
    (Config.maxOutstanding ≤ s.queue.length → ∀ t, step s = .next t →
      t.queue = s.queue ∨
      (∃ r, s.offered = some r ∧ t.queue = s.queue.tail ∧ t.delivered = s.delivered ++ [r]) ∨
      (t.rst = true ∧ t.queue = []))

/-- 30_encoding.md R49 item 1: a command that is not yet accepted has no effect and may be withdrawn or changed by the
host: where it cannot be accepted, the host's next move changes it into another or removes it, and nothing else. The
list of moves is the model's choice (log entry 1). -/
def Obligations.UnacceptedCommandIsTheHosts : Prop :=
  ∀ (s : State) (c : CommandWord) (later : List Input), s.acceptable = none →
    (s.inputs = .submit c :: later → step s = .next { s with waiting := some c, inputs := later }) ∧
    (s.inputs = .withdraw :: later → step s = .next { s with waiting := none, inputs := later })

/-! ## The flags -/

/-- 60_exceptions.md R126, 30_encoding.md R46: every response, to any of the 2^72 command words, has reserved bits 0 and
a flag byte among `0x00`, `0x01`, `0x02`, `0x04`. -/
def Obligations.AtMostOneFlagInAnyResponse : Prop :=
  ∀ c : CommandWord, ResponseFormed (respondWord c)

/-- 60_exceptions.md R125: which command can raise what: `SAT` only the ten commands of R25, and
`DIV` only with a divisor not zero; `DBZ` exactly `DIV` with a zero divisor; `ILL` exactly an unassigned opcode, which
raises nothing else; and each of the ten does raise `SAT` for some operands. -/
def Obligations.WhichCommandRaisesWhat : Prop :=
  (∀ i : Instr, satBit (respondInstr i) = true → mayOverflow i = true) ∧
  (∀ i : Instr, dbzBit (respondInstr i) = true ↔ ∃ a, i = .div a 0) ∧
  (∀ c : CommandWord, illBit (respondWord c) = !commandAssigned c) ∧
  (∀ a : Word32, satBit (respondInstr (.div a 0)) = false) ∧
  (∀ c : CommandWord, commandAssigned c = false → satBit (respondWord c) = false ∧ dbzBit (respondWord c) = false) ∧
  (∃ a b, satBit (respondInstr (.add a b)) = true) ∧ (∃ a b, satBit (respondInstr (.sub a b)) = true) ∧
  (∃ a b, satBit (respondInstr (.mul a b)) = true) ∧ (∃ a b, satBit (respondInstr (.div a b)) = true) ∧
  (∃ a, satBit (respondInstr (.abs a)) = true) ∧ (∃ a, satBit (respondInstr (.ceil a)) = true) ∧
  (∃ a, satBit (respondInstr (.round a)) = true) ∧ (∃ a, satBit (respondInstr (.tan a)) = true) ∧
  (∃ a, satBit (respondInstr (.todeg a)) = true) ∧ (∃ a, satBit (respondInstr (.fromint a)) = true)

/-- 10_state.md R25, 60_exceptions.md R121, R122, R123: what stands beside a flag: with `SAT` the result is `MAX` or
`MIN`, with `DBZ` or `ILL` it is 0. -/
def Obligations.FlagFixesTheResultField : Prop :=
  ∀ c : CommandWord,
    (satBit (respondWord c) = true →
      resultField (respondWord c) = 0x7FFFFFFF#32 ∨ resultField (respondWord c) = 0x80000000#32) ∧
    (dbzBit (respondWord c) = true → resultField (respondWord c) = 0x00000000#32) ∧
    (illBit (respondWord c) = true → resultField (respondWord c) = 0x00000000#32)

/-! ## Arithmetic -/

/-- 41_arithmetic.md R65: `ADD`, its encoding, its exact sum and its saturation. -/
def Obligations.AddAnswersSaturatedSum : Prop :=
  ∀ (a b : Word32) (s : State), decode (commandWord 0x00 a b) = .ok (.add a b) ∧
    ∃ r, exec (.add a b) s = .next { s with offered := some r } ∧ ReadsSaturated r (a.toInt + b.toInt)

/-- 41_arithmetic.md R66: `SUB`, its encoding, its exact difference and its saturation. -/
def Obligations.SubAnswersSaturatedDifference : Prop :=
  ∀ (a b : Word32) (s : State), decode (commandWord 0x01 a b) = .ok (.sub a b) ∧
    ∃ r, exec (.sub a b) s = .next { s with offered := some r } ∧ ReadsSaturated r (a.toInt - b.toInt)

/-- 41_arithmetic.md R67: `MUL`: the exact product divided by 65536, truncating toward zero, saturated. -/
def Obligations.MulAnswersTruncatedProduct : Prop :=
  ∀ (a b : Word32) (s : State), decode (commandWord 0x02 a b) = .ok (.mul a b) ∧
    ∃ r v, exec (.mul a b) s = .next { s with offered := some r } ∧
      TruncatesTo (a.toInt * b.toInt) 65536 v ∧ ReadsSaturated r v

/-- 41_arithmetic.md R68: `DIV`: with a zero divisor the result 0 with `DBZ` and no other flag; else the dividend times
65536 divided by the divisor, truncating toward zero, saturated. -/
def Obligations.DivAnswersTruncatedQuotientOrDbz : Prop :=
  ∀ (a b : Word32) (s : State), decode (commandWord 0x03 a b) = .ok (.div a b) ∧
    ∃ r, exec (.div a b) s = .next { s with offered := some r } ∧
      if b.toInt = 0 then Reads r 0 false true false
      else ∃ v, TruncatesTo (a.toInt * 65536) b.toInt v ∧ ReadsSaturated r v

/-- 41_arithmetic.md R69 item 1: where `ADD a, b` does not saturate, `SUB` of its result and `b` gives back `a` without
a flag, and the same with `SUB` first. -/
def Obligations.AddAndSubAreMutualInverses : Prop :=
  ∀ a b : Word32,
    (satBit (addResponse a b) = false → Reads (subResponse (resultField (addResponse a b)) b) a.toInt false false false) ∧
    (satBit (subResponse a b) = false → Reads (addResponse (resultField (subResponse a b)) b) a.toInt false false false)

/-- 41_arithmetic.md R69 item 2: for a fixed second operand `ADD` and `SUB` are non-decreasing in the first, saturated
results included. -/
def Obligations.AddAndSubAreMonotone : Prop :=
  ∀ a a' b : Word32, a.toInt ≤ a'.toInt →
    (resultField (addResponse a b)).toInt ≤ (resultField (addResponse a' b)).toInt ∧
    (resultField (subResponse a b)).toInt ≤ (resultField (subResponse a' b)).toInt

/-! ## Sign, absolute value, rounding -/

/-- 42_sign_rounding.md R75: `SIGN` gives the Fixed -1.0, 0.0 or +1.0, never a flag. -/
def Obligations.SignAnswersFixedUnit : Prop :=
  ∀ (a b : Word32) (s : State), decode (commandWord 0x10 a b) = .ok (.sign a) ∧
    ∃ r, exec (.sign a) s = .next { s with offered := some r } ∧
      (a.toInt > 0 → Reads r 65536 false false false) ∧ (a.toInt = 0 → Reads r 0 false false false) ∧
      (a.toInt < 0 → Reads r (-65536) false false false)

/-- 42_sign_rounding.md R76: `ABS` gives the absolute value; `SAT` exactly for `MIN`, with the result `MAX`. -/
def Obligations.AbsAnswersMagnitude : Prop :=
  ∀ (a b : Word32) (s : State), decode (commandWord 0x11 a b) = .ok (.abs a) ∧
    ∃ r, exec (.abs a) s = .next { s with offered := some r } ∧
      (a = 0x80000000#32 → Reads r 2147483647 true false false) ∧
      (a ≠ 0x80000000#32 → Reads r a.toInt.natAbs false false false)

/-- 42_sign_rounding.md R77: `FLOOR` gives the largest multiple of 65536 not above `a`, never a flag; as a bit operation,
`a` with bits 15:0 cleared. -/
def Obligations.FloorAnswersIntegerBelow : Prop :=
  ∀ (a b : Word32) (s : State), decode (commandWord 0x12 a b) = .ok (.floor a) ∧
    ∃ r y, exec (.floor a) s = .next { s with offered := some r } ∧ Reads r y false false false ∧
      y % 65536 = 0 ∧ y ≤ a.toInt ∧ a.toInt < y + 65536 ∧ resultField r = a &&& 0xFFFF0000#32

/-- 42_sign_rounding.md R78: `CEIL` gives the smallest multiple of 65536 not below `a`, saturated; `SAT` exactly when
`a` is above `0x7FFF0000`. -/
def Obligations.CeilAnswersIntegerAbove : Prop :=
  ∀ (a b : Word32) (s : State), decode (commandWord 0x13 a b) = .ok (.ceil a) ∧
    ∃ r v, exec (.ceil a) s = .next { s with offered := some r } ∧ ReadsSaturated r v ∧
      v % 65536 = 0 ∧ a.toInt ≤ v ∧ v < a.toInt + 65536 ∧ (satBit r = true ↔ a.toInt > 0x7FFF0000)

/-- 42_sign_rounding.md R79: `ROUND` gives the multiple of 65536 nearest to `a`, a tie going up, saturated; `SAT` exactly
when `a` is `0x7FFF8000` or more. -/
def Obligations.RoundAnswersNearestHalfUp : Prop :=
  ∀ (a b : Word32) (s : State), decode (commandWord 0x14 a b) = .ok (.round a) ∧
    ∃ r v, exec (.round a) s = .next { s with offered := some r } ∧ ReadsSaturated r v ∧
      v % 65536 = 0 ∧ a.toInt - 32768 < v ∧ v ≤ a.toInt + 32768 ∧ (satBit r = true ↔ a.toInt ≥ 0x7FFF8000)

/-- 42_sign_rounding.md R80: `MOD` gives `a` less its floor, between 0 and 65535, never a flag; as a bit operation, the
low 16 bits of `a`. -/
def Obligations.ModAnswersFraction : Prop :=
  ∀ (a b : Word32) (s : State), decode (commandWord 0x15 a b) = .ok (.mod a) ∧
    ∃ r y f, exec (.mod a) s = .next { s with offered := some r } ∧ Reads r y false false false ∧
      f % 65536 = 0 ∧ y = a.toInt - f ∧ 0 ≤ y ∧ y ≤ 65535 ∧ resultField r = a &&& 0x0000FFFF#32

/-- 42_sign_rounding.md R81: the six laws: `FLOOR a <= a <= CEIL a`; `FLOOR a + MOD a = a` with no flag; `CEIL` and
`ROUND` are `FLOOR` or `FLOOR` plus 1.0 saturated, by the fraction; the three are non-decreasing and leave an
integer-valued operand unchanged; unsaturated results have no fraction. -/
def Obligations.RoundingLaws : Prop :=
  (∀ a : Word32,
    resultField (leResponse (resultField (floorResponse a)) a) = 1#32 ∧
    resultField (leResponse a (resultField (ceilResponse a))) = 1#32) ∧
  (∀ a : Word32,
    Reads (addResponse (resultField (floorResponse a)) (resultField (modResponse a))) a.toInt false false false) ∧
  (∀ a : Word32,
    (resultField (modResponse a) = 0 → ceilResponse a = floorResponse a) ∧
    (resultField (modResponse a) ≠ 0 → ReadsSaturated (ceilResponse a) ((resultField (floorResponse a)).toInt + 65536))) ∧
  (∀ a : Word32,
    ((resultField (modResponse a)).toInt < 0x8000 → roundResponse a = floorResponse a) ∧
    ((resultField (modResponse a)).toInt ≥ 0x8000 →
      ReadsSaturated (roundResponse a) ((resultField (floorResponse a)).toInt + 65536))) ∧
  (∀ a a' : Word32, a.toInt ≤ a'.toInt →
    (resultField (floorResponse a)).toInt ≤ (resultField (floorResponse a')).toInt ∧
    (resultField (ceilResponse a)).toInt ≤ (resultField (ceilResponse a')).toInt ∧
    (resultField (roundResponse a)).toInt ≤ (resultField (roundResponse a')).toInt) ∧
  (∀ a : Word32, a.extractLsb' 0 16 = 0 →
    resultField (floorResponse a) = a ∧ resultField (ceilResponse a) = a ∧ resultField (roundResponse a) = a) ∧
  (∀ a : Word32,
    (resultField (floorResponse a)).extractLsb' 0 16 = 0 ∧
    (satBit (ceilResponse a) = false → (resultField (ceilResponse a)).extractLsb' 0 16 = 0) ∧
    (satBit (roundResponse a) = false → (resultField (roundResponse a)).extractLsb' 0 16 = 0))

/-! ## Comparison -/

/-- 43_comparison.md R85 to R89: the five comparisons compare the signed readings and answer 1 or 0, never a flag. -/
def Obligations.ComparisonsAnswerSignedVerdict : Prop :=
  ∀ (a b : Word32) (s : State),
    (decode (commandWord 0x20 a b) = .ok (.lt a b) ∧ ∃ r, exec (.lt a b) s = .next { s with offered := some r } ∧
      Reads r (if a.toInt < b.toInt then 1 else 0) false false false) ∧
    (decode (commandWord 0x21 a b) = .ok (.le a b) ∧ ∃ r, exec (.le a b) s = .next { s with offered := some r } ∧
      Reads r (if a.toInt ≤ b.toInt then 1 else 0) false false false) ∧
    (decode (commandWord 0x22 a b) = .ok (.gt a b) ∧ ∃ r, exec (.gt a b) s = .next { s with offered := some r } ∧
      Reads r (if b.toInt < a.toInt then 1 else 0) false false false) ∧
    (decode (commandWord 0x23 a b) = .ok (.ge a b) ∧ ∃ r, exec (.ge a b) s = .next { s with offered := some r } ∧
      Reads r (if b.toInt ≤ a.toInt then 1 else 0) false false false) ∧
    (decode (commandWord 0x24 a b) = .ok (.eq a b) ∧ ∃ r, exec (.eq a b) s = .next { s with offered := some r } ∧
      Reads r (if a = b then 1 else 0) false false false)

/-- 43_comparison.md R90: exactly one of `LT`, `EQ`, `GT` is 1; `LE` is 1 less `GT` and `GE` 1 less `LT`; `GT` and `GE`
are `LT` and `LE` with the operands exchanged; `LE` is transitive; response bits 31:1 are 0. -/
def Obligations.ComparisonLaws : Prop :=
  ∀ a b c : Word32,
    (resultField (ltResponse a b)).toInt + (resultField (eqResponse a b)).toInt + (resultField (gtResponse a b)).toInt = 1 ∧
    (resultField (leResponse a b)).toInt = 1 - (resultField (gtResponse a b)).toInt ∧
    (resultField (geResponse a b)).toInt = 1 - (resultField (ltResponse a b)).toInt ∧
    gtResponse a b = ltResponse b a ∧ geResponse a b = leResponse b a ∧
    (resultField (leResponse a b) = 1#32 → resultField (leResponse b c) = 1#32 → resultField (leResponse a c) = 1#32) ∧
    (∀ r ∈ [ltResponse a b, leResponse a b, gtResponse a b, geResponse a b, eqResponse a b],
      resultField r = 0#32 ∨ resultField r = 1#32)

/-! ## The trigonometric core -/

/-- 44_trig_core.md R94: the phase is bits 63:32 of the two's complement product of the operand and the constant; the
quadrant is its bits 31:30 and the first-quadrant angle its bits 29:0. -/
def Obligations.PhaseIsProductBits : Prop :=
  ∀ a : Word32,
    let product : BitVec 78 := a.signExtend 78 * 44798133900177#78
    phaseOf a.toInt = (product.extractLsb' 32 32).toNat ∧
    quadrantOf (phaseOf a.toInt) = (product.extractLsb' 62 2).toNat ∧
    firstQuadrantOf (phaseOf a.toInt) = (product.extractLsb' 32 30).toNat

/-- 44_trig_core.md R95, R96: the 28 angles of the table, and that `cordic_rotate` is 28 iterations of the recurrence
of the rule with them, from (`KINV_Q30`, 0, `r`), each reading the values before it. -/
def Obligations.RotationFollowsItsRecurrence : Prop :=
  atanTab = [536870912, 316933406, 167458907, 85004756, 42667331, 21354465, 10679838, 5340245, 2670163, 1335087, 667544,
      333772, 166886, 83443, 41722, 20861, 10430, 5215, 2608, 1304, 652, 326, 163, 81, 41, 20, 10, 5] ∧
  ∀ r : Int, ∃ x y z : Nat → Int,
    x 0 = 652032874 ∧ y 0 = 0 ∧ z 0 = r ∧
    (∀ i, i < 28 →
      (z i ≥ 0 → x (i + 1) = x i - y i / 2 ^ i ∧ y (i + 1) = y i + x i / 2 ^ i ∧ z (i + 1) = z i - atanTab.getD i 0) ∧
      (z i < 0 → x (i + 1) = x i + y i / 2 ^ i ∧ y (i + 1) = y i - x i / 2 ^ i ∧ z (i + 1) = z i + atanTab.getD i 0)) ∧
    cordicRotate r = (x 28, y 28)

/-- 44_trig_core.md R95, R97: the 28 angles of the table, and that `cordic_vector` is 28 iterations of the recurrence
of the rule with them, from (`x0`, `y0`, 0). -/
def Obligations.VectoringFollowsItsRecurrence : Prop :=
  atanTab = [536870912, 316933406, 167458907, 85004756, 42667331, 21354465, 10679838, 5340245, 2670163, 1335087, 667544,
      333772, 166886, 83443, 41722, 20861, 10430, 5215, 2608, 1304, 652, 326, 163, 81, 41, 20, 10, 5] ∧
  ∀ x0 y0 : Int, ∃ x y z : Nat → Int,
    x 0 = x0 ∧ y 0 = y0 ∧ z 0 = 0 ∧
    (∀ i, i < 28 →
      (y i ≥ 0 → x (i + 1) = x i + y i / 2 ^ i ∧ y (i + 1) = y i - x i / 2 ^ i ∧ z (i + 1) = z i + atanTab.getD i 0) ∧
      (y i < 0 → x (i + 1) = x i - y i / 2 ^ i ∧ y (i + 1) = y i + x i / 2 ^ i ∧ z (i + 1) = z i - atanTab.getD i 0)) ∧
    cordicVector x0 y0 = z 28

/-- 44_trig_core.md R100: the five facts that hold by construction: the phase, quadrant and first-quadrant angle; the
rounded magnitude and with it every `SIN` and `COS`; the angle of `ATAN2` after its clamp and after its reflection,
its radians and every `ATAN2` result; the normalised operands of the vectoring; and `TAN`, which answers for every
numerator and denominator, a zero denominator included. -/
def Obligations.RangesByConstruction : Prop :=
  (∀ a : Int, 0 ≤ phaseOf a ∧ phaseOf a < 2 ^ 32 ∧ 0 ≤ quadrantOf (phaseOf a) ∧ quadrantOf (phaseOf a) ≤ 3 ∧
    0 ≤ firstQuadrantOf (phaseOf a) ∧ firstQuadrantOf (phaseOf a) < 2 ^ 30) ∧
  (∀ v : Int, 0 ≤ roundQ30ToQ16 v ∧ roundQ30ToQ16 v ≤ 65536) ∧
  (∀ a : Word32, -65536 ≤ (resultField (sinResponse a)).toInt ∧ (resultField (sinResponse a)).toInt ≤ 65536 ∧
    -65536 ≤ (resultField (cosResponse a)).toInt ∧ (resultField (cosResponse a)).toInt ≤ 65536) ∧
  (∀ ax ay : Nat, 0 ≤ atanAngle ax ay ∧ atanAngle ax ay ≤ 2 ^ 30 ∧
    0 ≤ 2 ^ 31 - atanAngle ax ay ∧ 2 ^ 31 - atanAngle ax ay ≤ 2 ^ 31) ∧
  (∀ m : Int, 0 ≤ m → m ≤ 2 ^ 31 → 0 ≤ phaseToRadians m ∧ phaseToRadians m ≤ 205887) ∧
  (∀ a b : Word32, -205887 ≤ (resultField (atan2Response a b)).toInt ∧ (resultField (atan2Response a b)).toInt ≤ 205887) ∧
  (∀ ax ay : Nat, 1 ≤ ax → ax ≤ 2 ^ 31 → 1 ≤ ay → ay ≤ 2 ^ 31 →
    atanShift ax ay ≤ 31 ∧ 2 ^ 31 ≤ max ax ay * 2 ^ atanShift ax ay ∧ max ax ay * 2 ^ atanShift ax ay < 2 ^ 32) ∧
  (∀ num den : Int, if den = 0 then Reads (tanQuotient num den) (if num ≥ 0 then 2147483647 else -2147483648) true false false
    else ∃ v, TruncatesTo (num * 65536) den v ∧ ReadsSaturated (tanQuotient num den) v)

/-! ## Trigonometric commands -/

/-- 45_trig_ops.md R105, 44_trig_core.md R98: `SIN`: the first-quadrant sine or cosine, rounded half up to 16
fractional bits and clamped to `0 .. 65536`, with the sign of the quadrant, never a flag. -/
def Obligations.SinAnswersByQuadrant : Prop :=
  ∀ (a b : Word32) (s : State), decode (commandWord 0x30 a b) = .ok (.sin a) ∧
    ∃ r y, exec (.sin a) s = .next { s with offered := some r } ∧ Reads r y false false false ∧
      -65536 ≤ y ∧ y ≤ 65536 ∧
      let p := phaseOf a.toInt
      let cr := min (max (((cordicRotate (p % 2 ^ 30)).1 + 8192) / 2 ^ 14) 0) 65536
      let sr := min (max (((cordicRotate (p % 2 ^ 30)).2 + 8192) / 2 ^ 14) 0) 65536
      (p < 2 ^ 30 → y = sr) ∧ (2 ^ 30 ≤ p ∧ p < 2 ^ 31 → y = cr) ∧
      (2 ^ 31 ≤ p ∧ p < 3 * 2 ^ 30 → y = -sr) ∧ (3 * 2 ^ 30 ≤ p → y = -cr)

/-- 45_trig_ops.md R106, 44_trig_core.md R98: `COS`: the same rounded magnitudes, the quadrants moved by one, never a
flag. -/
def Obligations.CosAnswersByQuadrant : Prop :=
  ∀ (a b : Word32) (s : State), decode (commandWord 0x31 a b) = .ok (.cos a) ∧
    ∃ r y, exec (.cos a) s = .next { s with offered := some r } ∧ Reads r y false false false ∧
      -65536 ≤ y ∧ y ≤ 65536 ∧
      let p := phaseOf a.toInt
      let cr := min (max (((cordicRotate (p % 2 ^ 30)).1 + 8192) / 2 ^ 14) 0) 65536
      let sr := min (max (((cordicRotate (p % 2 ^ 30)).2 + 8192) / 2 ^ 14) 0) 65536
      (p < 2 ^ 30 → y = cr) ∧ (2 ^ 30 ≤ p ∧ p < 2 ^ 31 → y = -sr) ∧
      (2 ^ 31 ≤ p ∧ p < 3 * 2 ^ 30 → y = -cr) ∧ (3 * 2 ^ 30 ≤ p → y = sr)

/-- 45_trig_ops.md R107: `TAN`: the quotient of the unrounded sine and cosine (in an odd quadrant of the cosine and the
negated sine), truncated toward zero and saturated; a zero denominator saturates by the sign of the numerator; never
`DBZ`. -/
def Obligations.TanAnswersQuotient : Prop :=
  ∀ (a b : Word32) (s : State), decode (commandWord 0x32 a b) = .ok (.tan a) ∧
    ∃ r num den, exec (.tan a) s = .next { s with offered := some r } ∧
      (let p := phaseOf a.toInt
       let cs := cordicRotate (p % 2 ^ 30)
       if p / 2 ^ 30 = 0 ∨ p / 2 ^ 30 = 2 then num = cs.2 ∧ den = cs.1 else num = cs.1 ∧ den = -cs.2) ∧
      if den = 0 then Reads r (if num ≥ 0 then 2147483647 else -2147483648) true false false
      else ∃ v, TruncatesTo (num * 65536) den v ∧ ReadsSaturated r v

/-- 45_trig_ops.md R108: `ATAN2`: 0 at the origin, the exact constants on the axes; off them the magnitudes normalised by
one shift, the vectoring's angle clamped to `0 .. 2^30`, reflected for a negative x, converted to radians rounding to
nearest, with the sign of y; never a flag. -/
def Obligations.Atan2AnswersAngle : Prop :=
  ∀ (a b : Word32) (s : State), decode (commandWord 0x33 a b) = .ok (.atan2 a b) ∧
    ∃ r y, exec (.atan2 a b) s = .next { s with offered := some r } ∧ Reads r y false false false ∧
      if b.toInt = 0 ∧ a.toInt = 0 then y = 0
      else if b.toInt = 0 then y = (if a.toInt > 0 then 102944 else -102944)
      else if a.toInt = 0 then y = (if b.toInt > 0 then 0 else 205887)
      else ∃ (n : Nat) (z m rad : Int),
        n ≤ 31 ∧ 2 ^ 31 ≤ max b.toInt.natAbs a.toInt.natAbs * 2 ^ n ∧ max b.toInt.natAbs a.toInt.natAbs * 2 ^ n < 2 ^ 32 ∧
        z = min (max (cordicVector (b.toInt.natAbs * 2 ^ n) (a.toInt.natAbs * 2 ^ n)) 0) (2 ^ 30) ∧
        m = (if b.toInt < 0 then 2 ^ 31 - z else z) ∧
        rad * 2 ^ 44 ≤ m * 1686629713 + 2 ^ 43 ∧ m * 1686629713 + 2 ^ 43 < (rad + 1) * 2 ^ 44 ∧
        y = (if a.toInt < 0 then -rad else rad)

/-- 45_trig_ops.md R109 item 2: for two operands whose phases differ by exactly a quarter turn, modulo one turn, the
cosine of the first is the sine of the second. -/
def Obligations.CosineIsSineAQuarterTurnOn : Prop :=
  ∀ a1 a2 : Word32, phaseOf a2.toInt = (phaseOf a1.toInt + 2 ^ 30) % 2 ^ 32 → cosResponse a1 = sinResponse a2

/-- 45_trig_ops.md R109 item 4: `ATAN2` is unchanged when both operands are multiplied by the same power of two without
overflow, and is exactly odd in y for y not zero where the negation does not overflow. -/
def Obligations.Atan2ScalesAndIsOdd : Prop :=
  (∀ (a b a' b' : Word32) (k : Nat), a'.toInt = a.toInt * 2 ^ k → b'.toInt = b.toInt * 2 ^ k →
    atan2Response a' b' = atan2Response a b) ∧
  (∀ a a' b : Word32, a.toInt ≠ 0 → a'.toInt = -a.toInt →
    (resultField (atan2Response a' b)).toInt = -(resultField (atan2Response a b)).toInt)

/-! ## Angle units and conversion -/

/-- 46_angle_units.md R113: `TODEG`: `a` times 3754936 divided by 65536, truncating toward zero, saturated; bit for bit
the response of `MUL a, 0x00394BB8`; `SAT` exactly from 37480663 on in magnitude. -/
def Obligations.TodegIsMulByConstant : Prop :=
  ∀ (a b : Word32) (s : State), decode (commandWord 0x34 a b) = .ok (.todeg a) ∧
    ∃ r v, exec (.todeg a) s = .next { s with offered := some r } ∧
      TruncatesTo (a.toInt * 3754936) 65536 v ∧ ReadsSaturated r v ∧
      exec (.mul a 0x00394BB8#32) s = exec (.todeg a) s ∧
      (satBit r = true ↔ a.toInt ≥ 37480663 ∨ a.toInt ≤ -37480663)

/-- 46_angle_units.md R114: `TORAD`: `a` times 65536 divided by 3754936, truncating toward zero, never a flag; bit for bit
the response of `DIV a, 0x00394BB8`; at most 37480662 in magnitude. -/
def Obligations.ToradIsDivByConstant : Prop :=
  ∀ (a b : Word32) (s : State), decode (commandWord 0x35 a b) = .ok (.torad a) ∧
    ∃ r v, exec (.torad a) s = .next { s with offered := some r } ∧
      TruncatesTo (a.toInt * 65536) 3754936 v ∧ Reads r v false false false ∧
      exec (.div a 0x00394BB8#32) s = exec (.torad a) s ∧ -37480662 ≤ v ∧ v ≤ 37480662

/-- 40_conversion.md R55: `FROMINT`: the integer times 65536, saturated; `SAT` exactly outside -32768 to 32767. -/
def Obligations.FromintAnswersScaledInteger : Prop :=
  ∀ (a b : Word32) (s : State), decode (commandWord 0x40 a b) = .ok (.fromint a) ∧
    ∃ r, exec (.fromint a) s = .next { s with offered := some r } ∧ ReadsSaturated r (a.toInt * 65536) ∧
      (satBit r = true ↔ a.toInt > 32767 ∨ a.toInt < -32768)

/-- 40_conversion.md R56: `TOINT`: the raw value divided by 65536, truncating toward zero, in -32768 to 32767, never a
flag. -/
def Obligations.TointAnswersTruncatedInteger : Prop :=
  ∀ (a b : Word32) (s : State), decode (commandWord 0x41 a b) = .ok (.toint a) ∧
    ∃ r y, exec (.toint a) s = .next { s with offered := some r } ∧ Reads r y false false false ∧
      TruncatesTo a.toInt 65536 y ∧ -32768 ≤ y ∧ y ≤ 32767

/-- 40_conversion.md R57: for every integer in -32768 to 32767 the round trip through `FROMINT` and `TOINT` gives it
back, and neither response has a flag set; outside, it gives 32767 or -32768. -/
def Obligations.IntegerRoundTrip : Prop :=
  ∀ i : Word32,
    (-32768 ≤ i.toInt ∧ i.toInt ≤ 32767 →
      flagByte (fromintResponse i) = 0 ∧ Reads (tointResponse (resultField (fromintResponse i))) i.toInt false false false) ∧
    (i.toInt > 32767 → Reads (tointResponse (resultField (fromintResponse i))) 32767 false false false) ∧
    (i.toInt < -32768 → Reads (tointResponse (resultField (fromintResponse i))) (-32768) false false false)

/-- 40_conversion.md R58: the host-side contract `from_real` agrees with `FROMINT` on integers: the same raw value,
and saturation exactly where `FROMINT` sets `SAT`. A real value is a rational number here (log entry 6). -/
def Obligations.FromRealAgreesWithFromintOnIntegers : Prop :=
  ∀ a : Word32,
    (fromReal (a.toInt : Rat)).1 = (resultField (fromintResponse a)).toInt ∧
    (fromReal (a.toInt : Rat)).2 = satBit (fromintResponse a)

/-! ## The command script -/

/-- 30_encoding.md R48, 70_reset_and_hazards.md R145: a well-formed script always assembles and runs to its last
response, one response a line. That labels are distinct is read from the rule (log entry 7). That an ill-formed script
gives nothing at all is the model's choice (log entry 16). -/
def Obligations.WellFormedScriptRunsToItsEnd : Prop :=
  ∀ lines : List ScriptLine,
    (scriptWellFormed [] lines = true → ∃ rs, runScript [] lines = some rs ∧ rs.length = lines.length) ∧
    (scriptWellFormed [] lines = false → runScript [] lines = none)
end

