-- ==== Sys2Proof/Laws/Decode.lean ====
section
/-!
SUPPORT. The fields of an assembled command word, and that no two rows of the opcode map share an opcode
(30_encoding.md R40, R44).
-/

namespace Sys2Proof

/-- 30_encoding.md R40: a command word as one number. -/
theorem commandWord_toNat (op : Opcode) (a b : Word32) :
    (commandWord op a b).toNat = op.toNat * 18446744073709551616 + a.toNat * 4294967296 + b.toNat := by
  have h1 := op.isLt
  have h2 := a.isLt
  have h3 := b.isLt
  simp only [commandWord, BitVec.toNat_ofNat]
  omega

theorem opField_toNat (c : CommandWord) : (opField c).toNat = c.toNat / 18446744073709551616 % 256 := by
  simp [opField, BitVec.extractLsb'_toNat, Nat.shiftRight_eq_div_pow]

theorem aField_toNat (c : CommandWord) : (aField c).toNat = c.toNat / 4294967296 % 4294967296 := by
  simp [aField, BitVec.extractLsb'_toNat, Nat.shiftRight_eq_div_pow]

theorem bField_toNat (c : CommandWord) : (bField c).toNat = c.toNat % 4294967296 := by
  simp [bField, BitVec.extractLsb'_toNat]

@[simp] theorem opField_commandWord (op : Opcode) (a b : Word32) : opField (commandWord op a b) = op := by
  have h1 := op.isLt
  have h2 := a.isLt
  have h3 := b.isLt
  apply BitVec.eq_of_toNat_eq
  rw [opField_toNat, commandWord_toNat]
  omega

@[simp] theorem aField_commandWord (op : Opcode) (a b : Word32) : aField (commandWord op a b) = a := by
  have h2 := a.isLt
  have h3 := b.isLt
  apply BitVec.eq_of_toNat_eq
  rw [aField_toNat, commandWord_toNat]
  omega

@[simp] theorem bField_commandWord (op : Opcode) (a b : Word32) : bField (commandWord op a b) = b := by
  have h3 := b.isLt
  apply BitVec.eq_of_toNat_eq
  rw [bField_toNat, commandWord_toNat]
  omega

/-- 30_encoding.md R40: a command word is made of its three fields. -/
theorem commandWord_fields (c : CommandWord) : commandWord (opField c) (aField c) (bField c) = c := by
  have h := c.isLt
  apply BitVec.eq_of_toNat_eq
  rw [commandWord_toNat, opField_toNat, aField_toNat, bField_toNat]
  omega

/-- 30_encoding.md R43: a word whose opcode has a row decodes to that row's command on the word's fields. -/
theorem decode_of_findRow {c : CommandWord} {row : OpcodeRow} (h : findRow (opField c) = some row) :
    decode c = .ok (row.build (aField c) (bField c)) := by
  simp only [decode, h]

/-- 30_encoding.md R43: an assembled word whose opcode has a row decodes to that row's command. -/
theorem decode_of_row {op : Opcode} {row : OpcodeRow} (h : findRow op = some row) (a b : Word32) :
    decode (commandWord op a b) = .ok (row.build a b) := by
  have hr : findRow (opField (commandWord op a b)) = some row := (congrArg findRow (opField_commandWord op a b)).trans h
  rw [decode_of_findRow hr, aField_commandWord, bField_commandWord]

/-- 30_encoding.md R43: what an assembled word decodes to, by evaluating the opcode map on its opcode. -/
theorem decode_commandWord {op : Opcode} {a b : Word32} {i : Instr}
    (h : (findRow op).map (fun row => row.build a b) = some i) : decode (commandWord op a b) = .ok i := by
  cases hr : findRow op with
  | none => rw [hr] at h; cases h
  | some row => rw [hr] at h; rw [decode_of_row hr]; exact congrArg _ (Option.some.inj h)

/-- 30_encoding.md R45: a word whose opcode has no row is rejected by that opcode's name. -/
theorem decode_of_no_row {c : CommandWord} (h : findRow (opField c) = none) :
    decode c = .error (.unassigned (opField c)) := by
  simp only [decode, h]

/-- 30_encoding.md R43: a word that decodes has a row, and is that row's command on the word's fields. -/
theorem decode_ok {c : CommandWord} {i : Instr} (h : decode c = .ok i) :
    ∃ row, findRow (opField c) = some row ∧ i = row.build (aField c) (bField c) := by
  cases hr : findRow (opField c) with
  | none => rw [decode_of_no_row hr] at h; cases h
  | some row => simp only [decode, hr, Except.ok.injEq] at h; exact ⟨row, rfl, h.symm⟩

/-- 30_encoding.md R44: no opcode is assigned twice and no mnemonic stands for two commands. -/
theorem opcodeTable_distinct :
    (opcodeTable.map OpcodeRow.op).Nodup ∧ (opcodeTable.map OpcodeRow.mnemonic).Nodup := by decide

/-- 30_encoding.md R44: the row found for an opcode is a row of the map and carries that opcode. -/
theorem findRow_some {op : Opcode} {row : OpcodeRow} (h : findRow op = some row) :
    row ∈ opcodeTable ∧ row.op = op := by
  have h1 := List.mem_of_find?_eq_some h
  have h2 := List.find?_some h
  exact ⟨h1, by simpa using h2⟩

/-- 30_encoding.md R44: a row of the map is the row found for its own opcode. -/
theorem findRow_of_mem {row : OpcodeRow} (h : row ∈ opcodeTable) : findRow row.op = some row := by
  simp only [opcodeTable, List.mem_cons, List.not_mem_nil, or_false] at h
  rcases h with rfl | rfl | rfl | rfl | rfl | rfl | rfl | rfl | rfl | rfl | rfl | rfl | rfl | rfl | rfl | rfl | rfl |
    rfl | rfl | rfl | rfl | rfl | rfl <;> rfl

end Sys2Proof
end

