-- ==== Sys2Proof/Laws/Operands.lean ====
section
/-!
SUPPORT. What the notation of 00_scope.md R10 to R13 does: one lemma a function, in plain integer arithmetic, so that
`omega` finishes what rests on it.
-/

namespace Sys2Proof.Machine

open Sys2Proof.Safety

/-- 30_encoding.md R42: `MIN <= a <= MAX`. -/
theorem signed32_range (p : Word32) : -2147483648 ≤ signed32 p ∧ signed32 p ≤ 2147483647 := by
  have h1 := BitVec.le_toInt p
  have h2 := BitVec.toInt_lt (x := p)
  simp only [signed32]
  constructor
  · exact h1
  · have : p.toInt < 2147483648 := h2
    omega

/-- 00_scope.md R10: `signed32(bits32(v)) = v` in range. -/
theorem signed32_bits32 {v : Int} (hlo : -2147483648 ≤ v) (hhi : v ≤ 2147483647) : signed32 (bits32 v) = v := by
  simp only [signed32, bits32, BitVec.toInt_ofInt]
  rw [Int.bmod_def]
  have : ((2 ^ 32 : Nat) : Int) = 4294967296 := rfl
  split <;> omega

/-- 00_scope.md R10: `bits32(signed32(p)) = p`. -/
@[simp] theorem bits32_signed32 (p : Word32) : bits32 (signed32 p) = p := BitVec.ofInt_toInt

/-- 00_scope.md R11: `tdiv` is the division truncating toward zero. -/
theorem tdiv_truncates (n : Int) {d : Int} (hd : d ≠ 0) : TruncatesTo n d (tdiv n d) := by
  refine ⟨Int.tmod n d, ?_, ?_, ?_⟩
  · have := Int.mul_tdiv_add_tmod n d
    rw [tdiv, Int.mul_comm]; omega
  · rw [Int.natAbs_tmod]; exact Nat.mod_lt _ (Int.natAbs_pos.mpr hd)
  · rcases lt_trichotomy n 0 with h | h | h
    · have := Int.tmod_nonneg d (show 0 ≤ -n by omega)
      rw [Int.neg_tmod] at this
      omega
    · subst h; simp
    · have := Int.tmod_nonneg d (show 0 ≤ n by omega)
      omega

/-- 00_scope.md R11: the truncated quotient is unique. -/
theorem truncates_unique {n d q q' : Int} (h : TruncatesTo n d q) (h' : TruncatesTo n d q') : q = q' := by
  obtain ⟨r, hn, hr, hs⟩ := h
  obtain ⟨r', hn', hr', hs'⟩ := h'
  by_contra hq
  have hsub : (q - q') * d = r' - r := by linear_combination hn' - hn
  have habs : (r' - r).natAbs < d.natAbs := by omega
  rw [← hsub, Int.natAbs_mul] at habs
  have : 1 ≤ (q - q').natAbs := by omega
  have : d.natAbs ≤ (q - q').natAbs * d.natAbs := Nat.le_mul_of_pos_left _ this
  omega

/-- 00_scope.md R11: division by a positive number, bounded by the quotient's neighbours. -/
theorem tdiv_pos_bounds (n : Int) {d : Int} (hd : 0 < d) :
    (0 ≤ n → tdiv n d * d ≤ n ∧ n < (tdiv n d + 1) * d ∧ 0 ≤ tdiv n d) ∧
    (n ≤ 0 → (tdiv n d - 1) * d < n ∧ n ≤ tdiv n d * d ∧ tdiv n d ≤ 0) := by
  obtain ⟨r, hn, hr, hs⟩ := tdiv_truncates n (by omega : d ≠ 0)
  generalize tdiv n d = q at *
  refine ⟨fun h => ⟨?_, ?_, ?_⟩, fun h => ⟨?_, ?_, ?_⟩⟩
  · omega
  · rw [Int.add_mul]; omega
  · by_contra hq
    have : q * d ≤ -1 * d := Int.mul_le_mul_of_nonneg_right (by omega) (by omega)
    omega
  · rw [Int.sub_mul]; omega
  · omega
  · by_contra hq
    have : 1 * d ≤ q * d := Int.mul_le_mul_of_nonneg_right (by omega) (by omega)
    omega

/-- 00_scope.md R12: the floor shift by a fixed amount is the floor division by the power of two. -/
theorem asr_eq_div (v : Int) (n : Nat) : asr v n = v / 2 ^ n := by simp [asr]

@[simp] theorem asr_14 (v : Int) : asr v 14 = v / 16384 := rfl
@[simp] theorem asr_16 (v : Int) : asr v 16 = v / 65536 := rfl
@[simp] theorem asr_32 (v : Int) : asr v 32 = v / 4294967296 := rfl
@[simp] theorem asr_44 (v : Int) : asr v 44 = v / 17592186044416 := rfl

/-- 00_scope.md R12: a clamped value lies between the bounds. -/
theorem clamp_range (v : Int) {lo hi : Int} (h : lo ≤ hi) : lo ≤ clamp v lo hi ∧ clamp v lo hi ≤ hi := by
  simp only [clamp]; omega

/-- 00_scope.md R13: the three cases of `sat32`. -/
theorem sat32_cases (v : Int) :
    (v > 2147483647 ∧ sat32 v = (2147483647, true)) ∨
    (v < -2147483648 ∧ sat32 v = (-2147483648, true)) ∨
    (-2147483648 ≤ v ∧ v ≤ 2147483647 ∧ sat32 v = (v, false)) := by
  have hmax : maxRaw = 2147483647 := rfl
  have hmin : minRaw = -2147483648 := rfl
  unfold sat32
  by_cases h1 : v > maxRaw
  · rw [if_pos h1]; exact .inl ⟨by omega, rfl⟩
  · by_cases h2 : v < minRaw
    · rw [if_neg h1, if_pos h2]; exact .inr (.inl ⟨by omega, rfl⟩)
    · rw [if_neg h1, if_neg h2]; exact .inr (.inr ⟨by omega, by omega, rfl⟩)

/-- 00_scope.md R13: a value in range is not changed. -/
theorem sat32_of_mem {v : Int} (hlo : -2147483648 ≤ v) (hhi : v ≤ 2147483647) : sat32 v = (v, false) := by
  rcases sat32_cases v with ⟨h, _⟩ | ⟨h, _⟩ | ⟨_, _, h⟩
  · omega
  · omega
  · exact h

/-- 00_scope.md R13: the saturated value lies in `MIN..MAX`. -/
theorem sat32_range (v : Int) : -2147483648 ≤ (sat32 v).1 ∧ (sat32 v).1 ≤ 2147483647 := by
  rcases sat32_cases v with ⟨_, h⟩ | ⟨_, h⟩ | ⟨_, _, h⟩ <;> rw [h] <;> constructor <;> simp <;> omega

/-- 41_arithmetic.md R69 item 2: `sat32` is non-decreasing. -/
theorem sat32_mono {v w : Int} (h : v ≤ w) : (sat32 v).1 ≤ (sat32 w).1 := by
  rcases sat32_cases v with ⟨_, hv⟩ | ⟨_, hv⟩ | ⟨_, _, hv⟩ <;>
    rcases sat32_cases w with ⟨_, hw⟩ | ⟨_, hw⟩ | ⟨_, _, hw⟩ <;> rw [hv, hw] <;> simp <;> omega

end Sys2Proof.Machine
end

