-- ==== Sys2Proof/Laws/Response.lean ====
section
/-!
SUPPORT. What the fields of a response word made by `respond` and `respondSaturated` hold (30_encoding.md R41,
10_state.md R25).
-/

namespace Sys2Proof.Machine

open Sys2Proof.Safety

theorem flagsNumber_lt (f : Flags) : flagsNumber f < 8 := by
  cases f with | mk s d i => cases s <;> cases d <;> cases i <;> decide

/-- 30_encoding.md R41: a response word as one number. -/
theorem respond_toNat (v : Int) (f : Flags) :
    (respond v f).toNat = flagsNumber f * 4294967296 + (bits32 v).toNat := by
  have h1 := flagsNumber_lt f
  have h2 := (bits32 v).isLt
  simp only [respond, BitVec.toNat_ofNat]
  omega

/-- A bit of a word, as arithmetic on its number. -/
theorem getLsbD_eq_div {w : Nat} (r : BitVec w) (i : Nat) : r.getLsbD i = decide (r.toNat / 2 ^ i % 2 = 1) := by
  rw [BitVec.getLsbD, Nat.testBit_eq_decide_div_mod_eq]

@[simp] theorem resultField_respond (v : Int) (f : Flags) : resultField (respond v f) = bits32 v := by
  have h2 := (bits32 v).isLt
  apply BitVec.eq_of_toNat_eq
  rw [resultField, BitVec.extractLsb'_toNat, respond_toNat]
  omega

@[simp] theorem satBit_respond (v : Int) (f : Flags) : satBit (respond v f) = f.sat := by
  have h2 := (bits32 v).isLt
  rw [satBit, getLsbD_eq_div, respond_toNat]
  cases f with | mk s d i => cases s <;> cases d <;> cases i <;> simp [flagsNumber] <;> omega

@[simp] theorem dbzBit_respond (v : Int) (f : Flags) : dbzBit (respond v f) = f.dbz := by
  have h2 := (bits32 v).isLt
  rw [dbzBit, getLsbD_eq_div, respond_toNat]
  cases f with | mk s d i => cases s <;> cases d <;> cases i <;> simp [flagsNumber] <;> omega

@[simp] theorem illBit_respond (v : Int) (f : Flags) : illBit (respond v f) = f.ill := by
  have h2 := (bits32 v).isLt
  rw [illBit, getLsbD_eq_div, respond_toNat]
  cases f with | mk s d i => cases s <;> cases d <;> cases i <;> simp [flagsNumber] <;> omega

@[simp] theorem reservedField_respond (v : Int) (f : Flags) : reservedField (respond v f) = 0 := by
  have h1 := flagsNumber_lt f
  have h2 := (bits32 v).isLt
  apply BitVec.eq_of_toNat_eq
  rw [reservedField, BitVec.extractLsb'_toNat, respond_toNat, Nat.shiftRight_eq_div_pow]
  simp
  omega

/-- 30_encoding.md R41: the flag byte is `ILL * 4 + DBZ * 2 + SAT`. -/
@[simp] theorem flagByte_respond (v : Int) (f : Flags) : flagByte (respond v f) = BitVec.ofNat 8 (flagsNumber f) := by
  have h1 := flagsNumber_lt f
  have h2 := (bits32 v).isLt
  apply BitVec.eq_of_toNat_eq
  rw [flagByte, BitVec.extractLsb'_toNat, respond_toNat, Nat.shiftRight_eq_div_pow, BitVec.toNat_ofNat]
  omega

/-- 30_encoding.md R41: what `respond` says, for a value in range. -/
theorem reads_respond {v : Int} (f : Flags) (hlo : -2147483648 ≤ v) (hhi : v ≤ 2147483647) :
    Reads (respond v f) v f.sat f.dbz f.ill :=
  ⟨by rw [resultField_respond]; exact signed32_bits32 hlo hhi, by simp, by simp, by simp, by simp⟩

/-- 10_state.md R25: what `respondSaturated` says. -/
theorem readsSaturated_respondSaturated (v : Int) : ReadsSaturated (respondSaturated v) v := by
  rcases sat32_cases v with ⟨h, e⟩ | ⟨h, e⟩ | ⟨h1, h2, e⟩ <;> refine ⟨fun h' => ?_, fun h' => ?_, fun h' => ?_⟩ <;>
    first
      | omega
      | (rw [respondSaturated, e]; exact reads_respond _ (by omega) (by omega))

/-- 10_state.md R25: `SAT` is set exactly when the exact result lies outside the range. -/
theorem satBit_respondSaturated (v : Int) :
    satBit (respondSaturated v) = true ↔ v > 2147483647 ∨ v < -2147483648 := by
  rcases sat32_cases v with ⟨h, e⟩ | ⟨h, e⟩ | ⟨h1, h2, e⟩ <;> simp [respondSaturated, e, satFlags] <;> omega

/-- 10_state.md R25: the result field of a saturated response, as a signed integer. -/
theorem result_respondSaturated (v : Int) : (resultField (respondSaturated v)).toInt = (sat32 v).1 := by
  rw [respondSaturated, resultField_respond]
  exact signed32_bits32 (sat32_range v).1 (sat32_range v).2

/-- 10_state.md R25: in range, a saturated response is the plain one. -/
theorem respondSaturated_of_mem {v : Int} (hlo : -2147483648 ≤ v) (hhi : v ≤ 2147483647) :
    respondSaturated v = respond v noFlags := by
  rw [respondSaturated, sat32_of_mem hlo hhi]; rfl

end Sys2Proof.Machine
end

