-- ==== Sys2Proof/Laws/Trig.lean ====
section
/-!
SUPPORT. The ranges of the trigonometric core that hold whatever the iterations return (44_trig_core.md R98, R100), and
the iterations one at a time (R96, R97).
-/

namespace Sys2Proof.Machine

/-- 44_trig_core.md R98: the rounded magnitude lies in `0 .. 65536` by its clamp. -/
theorem roundQ30ToQ16_range (v : Int) : 0 ≤ roundQ30ToQ16 v ∧ roundQ30ToQ16 v ≤ 65536 :=
  clamp_range _ (by decide)

/-- 44_trig_core.md R98: the rounded magnitude in plain integer arithmetic. -/
theorem roundQ30ToQ16_eq (v : Int) : roundQ30ToQ16 v = min (max ((v + 8192) / 16384) 0) 65536 := by
  simp only [roundQ30ToQ16, clamp, asr_14]

/-- 45_trig_ops.md R105: the range of the raw sine. -/
theorem sinRaw_range (a : Int) : -65536 ≤ sinRaw a ∧ sinRaw a ≤ 65536 := by
  have hc := roundQ30ToQ16_range (sincosParts a).c30
  have hs := roundQ30ToQ16_range (sincosParts a).s30
  simp only [sinRaw]
  split_ifs <;> omega

/-- 45_trig_ops.md R106: the range of the raw cosine. -/
theorem cosRaw_range (a : Int) : -65536 ≤ cosRaw a ∧ cosRaw a ≤ 65536 := by
  have hc := roundQ30ToQ16_range (sincosParts a).c30
  have hs := roundQ30ToQ16_range (sincosParts a).s30
  simp only [cosRaw]
  split_ifs <;> omega

/-- 44_trig_core.md R100 item 3: the clamped angle. -/
theorem atanAngle_range (ax ay : Nat) : 0 ≤ atanAngle ax ay ∧ atanAngle ax ay ≤ 1073741824 :=
  clamp_range _ (by decide)

/-- 44_trig_core.md R100 item 3: the radians of a phase of at most half a turn. -/
theorem phaseToRadians_range {m : Int} (hlo : 0 ≤ m) (hhi : m ≤ 2147483648) :
    0 ≤ phaseToRadians m ∧ phaseToRadians m ≤ 205887 := by
  simp only [phaseToRadians, twoPiQ28, asr_44]
  omega

/-- 45_trig_ops.md R108: the range of the raw arctangent. -/
theorem atan2Raw_range (yv xv : Int) : -205887 ≤ atan2Raw yv xv ∧ atan2Raw yv xv ≤ 205887 := by
  have hz := atanAngle_range xv.natAbs yv.natAbs
  have h1 := phaseToRadians_range (m := atanAngle xv.natAbs yv.natAbs) (by omega) (by omega)
  have h2 := phaseToRadians_range (m := 2147483648 - atanAngle xv.natAbs yv.natAbs) (by omega) (by omega)
  simp only [atan2Raw, atanOffAxis, halfPiRaw, piRaw]
  split_ifs <;> omega

/-- 44_trig_core.md R96: one iteration at a time. -/
@[simp] theorem rotateFrom_cons (i : Nat) (t : Int) (rest : List Int) (v : Cordic) :
    rotateFrom i (t :: rest) v = rotateFrom (i + 1) rest (rotateStep i t v) := rfl

@[simp] theorem rotateFrom_nil (i : Nat) (v : Cordic) : rotateFrom i [] v = v := rfl

/-- 44_trig_core.md R97: one iteration at a time. -/
@[simp] theorem vectorFrom_cons (i : Nat) (t : Int) (rest : List Int) (v : Cordic) :
    vectorFrom i (t :: rest) v = vectorFrom (i + 1) rest (vectorStep i t v) := rfl

@[simp] theorem vectorFrom_nil (i : Nat) (v : Cordic) : vectorFrom i [] v = v := rfl

/-- 44_trig_core.md R94, R100 item 1: a phase is below one turn. -/
theorem phaseOf_range (a : Int) : 0 ≤ phaseOf a ∧ phaseOf a < 4294967296 := by
  simp only [phaseOf]; omega

/-- 44_trig_core.md R99: the quadrant. -/
theorem sincosParts_q (a : Int) : (sincosParts a).q = phaseOf a / 1073741824 := rfl

/-- 44_trig_core.md R99: the cosine of the first-quadrant angle. -/
theorem sincosParts_c30 (a : Int) : (sincosParts a).c30 = (cordicRotate (phaseOf a % 1073741824)).1 := by
  simp only [sincosParts, firstQuadrantOf]

/-- 44_trig_core.md R99: the sine of the first-quadrant angle. -/
theorem sincosParts_s30 (a : Int) : (sincosParts a).s30 = (cordicRotate (phaseOf a % 1073741824)).2 := by
  simp only [sincosParts, firstQuadrantOf]

/-- 45_trig_ops.md R105: the four quadrants of the raw sine. -/
theorem sinRaw_eq (a : Int) : sinRaw a =
    if (sincosParts a).q = 0 then roundQ30ToQ16 (sincosParts a).s30
    else if (sincosParts a).q = 1 then roundQ30ToQ16 (sincosParts a).c30
    else if (sincosParts a).q = 2 then -roundQ30ToQ16 (sincosParts a).s30
    else -roundQ30ToQ16 (sincosParts a).c30 := rfl

/-- 45_trig_ops.md R106: the four quadrants of the raw cosine. -/
theorem cosRaw_eq (a : Int) : cosRaw a =
    if (sincosParts a).q = 0 then roundQ30ToQ16 (sincosParts a).c30
    else if (sincosParts a).q = 1 then -roundQ30ToQ16 (sincosParts a).s30
    else if (sincosParts a).q = 2 then -roundQ30ToQ16 (sincosParts a).c30
    else roundQ30ToQ16 (sincosParts a).s30 := rfl

/-- 44_trig_core.md R96: the iteration where angle is left to turn, or none is. -/
theorem rotateStep_pos (i : Nat) (t : Int) {v : Cordic} (h : v.z ≥ 0) :
    rotateStep i t v = ⟨v.x - v.y / 2 ^ i, v.y + v.x / 2 ^ i, v.z - t⟩ := by
  rw [rotateStep, if_pos h, asr_eq_div, asr_eq_div]

/-- 44_trig_core.md R96: the iteration where too much has been turned. -/
theorem rotateStep_neg (i : Nat) (t : Int) {v : Cordic} (h : v.z < 0) :
    rotateStep i t v = ⟨v.x + v.y / 2 ^ i, v.y - v.x / 2 ^ i, v.z + t⟩ := by
  rw [rotateStep, if_neg (by omega), asr_eq_div, asr_eq_div]

/-- 44_trig_core.md R97: the iteration where the vector lies on or above the x axis. -/
theorem vectorStep_pos (i : Nat) (t : Int) {v : Cordic} (h : v.y ≥ 0) :
    vectorStep i t v = ⟨v.x + v.y / 2 ^ i, v.y - v.x / 2 ^ i, v.z + t⟩ := by
  rw [vectorStep, if_pos h, asr_eq_div, asr_eq_div]

/-- 44_trig_core.md R97: the iteration where the vector lies below the x axis. -/
theorem vectorStep_neg (i : Nat) (t : Int) {v : Cordic} (h : v.y < 0) :
    vectorStep i t v = ⟨v.x - v.y / 2 ^ i, v.y + v.x / 2 ^ i, v.z - t⟩ := by
  rw [vectorStep, if_neg (by omega), asr_eq_div, asr_eq_div]

/-- 45_trig_ops.md R108: the normalising shift brings the larger magnitude to `2^31 .. 2^32 - 1`. -/
theorem atanShift_normalises {ax ay : Nat} (hpos : 1 ≤ max ax ay) (hle : max ax ay ≤ 2 ^ 31) :
    2 ^ 31 ≤ max ax ay * 2 ^ atanShift ax ay ∧ max ax ay * 2 ^ atanShift ax ay < 2 ^ 32 := by
  simp only [atanShift]
  generalize max ax ay = m at *
  have hlo : 2 ^ m.log2 ≤ m := Nat.log2_self_le (by omega)
  have hhi : m < 2 ^ (m.log2 + 1) := Nat.lt_log2_self
  have hl : m.log2 ≤ 31 := by
    by_contra h
    have : 2 ^ 32 ≤ 2 ^ m.log2 := Nat.pow_le_pow_right (by decide) (by omega)
    omega
  constructor
  · calc 2 ^ 31 = 2 ^ m.log2 * 2 ^ (31 - m.log2) := by rw [← Nat.pow_add]; congr 1; omega
      _ ≤ m * 2 ^ (31 - m.log2) := Nat.mul_le_mul_right _ hlo
  · calc m * 2 ^ (31 - m.log2) < 2 ^ (m.log2 + 1) * 2 ^ (31 - m.log2) :=
          Nat.mul_lt_mul_of_pos_right hhi (by positivity)
      _ = 2 ^ 32 := by rw [← Nat.pow_add]; congr 1; omega

end Sys2Proof.Machine
end

