-- ==== Sys2Proof/Laws/Meanings.lean ====
section
/-!
SUPPORT. The meanings of Machine/Dispatch.lean and the pure function of Machine/Respond.lean are one and the same, and
how each exact result lies against the range.
-/

namespace Sys2Proof.Machine

open Sys2Proof.Safety

/-- 00_scope.md R7: a command's meaning offers the response the pure function gives, and changes nothing else. -/
theorem exec_eq_offer (i : Instr) (s : State) : exec i s = .next (s.offer (respondInstr i)) := by
  cases i <;> rfl

/-- 30_encoding.md R43: the pure function on a word that decodes. -/
theorem respondWord_of_decode {c : CommandWord} {i : Instr} (h : decode c = .ok i) : respondWord c = respondInstr i := by
  simp only [respondWord, h]

/-- 30_encoding.md R45: the pure function on a word that does not. -/
theorem respondWord_of_error {c : CommandWord} {e : DecodeError} (h : decode c = .error e) :
    respondWord c = illegalResponse := by
  simp only [respondWord, h]

/-- 42_sign_rounding.md R77: the floor is the multiple of 65536 at or just below. -/
theorem floorRaw_eq (a : Int) : floorRaw a = a / 65536 * 65536 := rfl

/-- 42_sign_rounding.md R77: a floor of a value in range is in range. -/
theorem floorRaw_range {a : Int} (hlo : -2147483648 ≤ a) (hhi : a ≤ 2147483647) :
    -2147483648 ≤ floorRaw a ∧ floorRaw a ≤ 2147418112 := by
  rw [floorRaw_eq]; omega

/-- 40_conversion.md R56: a truncated integer part lies in -32768 to 32767. -/
theorem toint_range (a : Word32) : -32768 ≤ tdiv (signed32 a) scale ∧ tdiv (signed32 a) scale ≤ 32767 := by
  have hr := signed32_range a
  have hb := tdiv_pos_bounds (signed32 a) (d := scale) (by decide)
  simp only [scale] at *
  rcases le_total 0 (signed32 a) with h | h
  · have := hb.1 h; omega
  · have := hb.2 h; omega

/-- 46_angle_units.md R114: the angle in radians stays far inside the range. -/
theorem torad_range (a : Word32) :
    -37480662 ≤ divExact (signed32 a) rad2degRaw ∧ divExact (signed32 a) rad2degRaw ≤ 37480662 := by
  have hr := signed32_range a
  have hb := tdiv_pos_bounds (signed32 a * scale) (d := rad2degRaw) (by decide)
  simp only [divExact]
  simp only [scale, rad2degRaw] at *
  rcases le_total 0 (signed32 a * 65536) with h | h
  · have := hb.1 h; omega
  · have := hb.2 h; omega

/-- 10_state.md R21: the only pattern of zero is zero. -/
theorem signed32_eq_zero {p : Word32} : signed32 p = 0 ↔ p = 0 := by
  constructor
  · intro h; rw [← bits32_signed32 p, h]; rfl
  · rintro rfl; rfl

/-- 41_arithmetic.md R68: the zero divisor. -/
theorem divResponse_zero (a : Word32) {b : Word32} (h : signed32 b = 0) : divResponse a b = respond 0 dbzFlags := if_pos h

/-- 41_arithmetic.md R68: any other divisor. -/
theorem divResponse_ne (a : Word32) {b : Word32} (h : signed32 b ≠ 0) :
    divResponse a b = respondSaturated (divExact (signed32 a) (signed32 b)) := if_neg h

/-- 45_trig_ops.md R107: the asymptote. -/
theorem tanQuotient_zero (num : Int) {den : Int} (h : den = 0) :
    tanQuotient num den = respond (if num ≥ 0 then maxRaw else minRaw) (satFlags true) := if_pos h

/-- 45_trig_ops.md R107: off the asymptotes. -/
theorem tanQuotient_ne (num : Int) {den : Int} (h : den ≠ 0) :
    tanQuotient num den = respondSaturated (tdiv (num * scale) den) := if_neg h

/-- Everything a response can be: the saturated response of a command that may overflow, a plain response whose value
lies in range, the zero-divisor response of `DIV`, or the asymptote response of `TAN` (60_exceptions.md R125). -/
theorem respondInstr_cases (i : Instr) :
    (∃ v, mayOverflow i = true ∧ respondInstr i = respondSaturated v) ∨
    (∃ v, -2147483648 ≤ v ∧ v ≤ 2147483647 ∧ respondInstr i = respond v noFlags) ∨
    (∃ a, i = .div a 0 ∧ respondInstr i = respond 0 dbzFlags) ∨
    (∃ a v, i = .tan a ∧ (v = maxRaw ∨ v = minRaw) ∧ respondInstr i = respond v (satFlags true)) := by
  have bool : ∀ b : Bool, ∃ v, -2147483648 ≤ v ∧ v ≤ 2147483647 ∧ boolResponse b = respond v noFlags :=
    fun b => ⟨boolRaw b, by cases b <;> decide, by cases b <;> decide, rfl⟩
  cases i with
  | add a b => exact .inl ⟨_, rfl, rfl⟩
  | sub a b => exact .inl ⟨_, rfl, rfl⟩
  | mul a b => exact .inl ⟨_, rfl, rfl⟩
  | div a b =>
    by_cases hb : signed32 b = 0
    · exact .inr (.inr (.inl ⟨a, by rw [signed32_eq_zero.mp hb], divResponse_zero a hb⟩))
    · exact .inl ⟨_, rfl, divResponse_ne a hb⟩
  | sign a =>
    refine .inr (.inl ⟨signRaw (signed32 a), ?_, ?_, rfl⟩) <;> simp only [signRaw, scale] <;> split_ifs <;> omega
  | abs a => exact .inl ⟨_, rfl, rfl⟩
  | floor a =>
    have h := floorRaw_range (signed32_range a).1 (signed32_range a).2
    exact .inr (.inl ⟨_, h.1, by omega, rfl⟩)
  | ceil a => exact .inl ⟨_, rfl, rfl⟩
  | round a => exact .inl ⟨_, rfl, rfl⟩
  | mod a =>
    refine .inr (.inl ⟨signed32 a - floorRaw (signed32 a), ?_, ?_, rfl⟩) <;> rw [floorRaw_eq] <;> omega
  | lt a b => exact .inr (.inl (bool _))
  | le a b => exact .inr (.inl (bool _))
  | gt a b => exact .inr (.inl (bool _))
  | ge a b => exact .inr (.inl (bool _))
  | eq a b => exact .inr (.inl (bool _))
  | sin a =>
    have h := sinRaw_range (signed32 a)
    exact .inr (.inl ⟨_, by omega, by omega, rfl⟩)
  | cos a =>
    have h := cosRaw_range (signed32 a)
    exact .inr (.inl ⟨_, by omega, by omega, rfl⟩)
  | tan a =>
    by_cases hd : tanDen (sincosParts (signed32 a)) = 0
    · refine .inr (.inr (.inr ⟨a, _, rfl, ?_, tanQuotient_zero _ hd⟩))
      split
      · exact .inl rfl
      · exact .inr rfl
    · exact .inl ⟨_, rfl, tanQuotient_ne _ hd⟩
  | atan2 a b =>
    have h := atan2Raw_range (signed32 a) (signed32 b)
    exact .inr (.inl ⟨_, by omega, by omega, rfl⟩)
  | todeg a => exact .inl ⟨_, rfl, rfl⟩
  | torad a =>
    have h := torad_range a
    exact .inr (.inl ⟨_, by omega, by omega, rfl⟩)
  | fromint a => exact .inl ⟨_, rfl, rfl⟩
  | toint a =>
    have h := toint_range a
    exact .inr (.inl ⟨_, by omega, by omega, rfl⟩)

end Sys2Proof.Machine
end

