-- ==== Sys2Proof/Laws/State.lean ====
section
/-!
SUPPORT. What each update of the state leaves in each field: one lemma a field and an update, so that no proof unfolds a
record update. Delivery (`State.take`) has two cases and is described in Sys2Proof/Laws/Ops.lean.
-/

namespace Sys2Proof.Machine

@[simp] theorem State.offer_rst (s : State) (r : ResponseWord) : (s.offer r).rst = s.rst := rfl
@[simp] theorem State.offer_waiting (s : State) (r : ResponseWord) : (s.offer r).waiting = s.waiting := rfl
@[simp] theorem State.offer_queue (s : State) (r : ResponseWord) : (s.offer r).queue = s.queue := rfl
@[simp] theorem State.offer_offered (s : State) (r : ResponseWord) : (s.offer r).offered = some r := rfl
@[simp] theorem State.offer_delivered (s : State) (r : ResponseWord) : (s.offer r).delivered = s.delivered := rfl
@[simp] theorem State.offer_inputs (s : State) (r : ResponseWord) : (s.offer r).inputs = s.inputs := rfl

@[simp] theorem State.accept_rst (s : State) (c : CommandWord) : (s.accept c).rst = s.rst := rfl
@[simp] theorem State.accept_waiting (s : State) (c : CommandWord) : (s.accept c).waiting = none := rfl
@[simp] theorem State.accept_queue (s : State) (c : CommandWord) : (s.accept c).queue = s.queue ++ [c] := rfl
@[simp] theorem State.accept_offered (s : State) (c : CommandWord) : (s.accept c).offered = s.offered := rfl
@[simp] theorem State.accept_delivered (s : State) (c : CommandWord) : (s.accept c).delivered = s.delivered := rfl
@[simp] theorem State.accept_inputs (s : State) (c : CommandWord) : (s.accept c).inputs = s.inputs := rfl

@[simp] theorem State.submit_rst (s : State) (c : CommandWord) : (s.submit c).rst = s.rst := rfl
@[simp] theorem State.submit_waiting (s : State) (c : CommandWord) : (s.submit c).waiting = some c := rfl
@[simp] theorem State.submit_queue (s : State) (c : CommandWord) : (s.submit c).queue = s.queue := rfl
@[simp] theorem State.submit_offered (s : State) (c : CommandWord) : (s.submit c).offered = s.offered := rfl
@[simp] theorem State.submit_delivered (s : State) (c : CommandWord) : (s.submit c).delivered = s.delivered := rfl
@[simp] theorem State.submit_inputs (s : State) (c : CommandWord) : (s.submit c).inputs = s.inputs := rfl

@[simp] theorem State.withdraw_rst (s : State) : s.withdraw.rst = s.rst := rfl
@[simp] theorem State.withdraw_waiting (s : State) : s.withdraw.waiting = none := rfl
@[simp] theorem State.withdraw_queue (s : State) : s.withdraw.queue = s.queue := rfl
@[simp] theorem State.withdraw_offered (s : State) : s.withdraw.offered = s.offered := rfl
@[simp] theorem State.withdraw_delivered (s : State) : s.withdraw.delivered = s.delivered := rfl
@[simp] theorem State.withdraw_inputs (s : State) : s.withdraw.inputs = s.inputs := rfl

@[simp] theorem State.assertReset_rst (s : State) : s.assertReset.rst = true := rfl
@[simp] theorem State.assertReset_waiting (s : State) : s.assertReset.waiting = s.waiting := rfl
@[simp] theorem State.assertReset_queue (s : State) : s.assertReset.queue = [] := rfl
@[simp] theorem State.assertReset_offered (s : State) : s.assertReset.offered = none := rfl
@[simp] theorem State.assertReset_delivered (s : State) : s.assertReset.delivered = s.delivered := rfl
@[simp] theorem State.assertReset_inputs (s : State) : s.assertReset.inputs = s.inputs := rfl

@[simp] theorem State.releaseReset_rst (s : State) : s.releaseReset.rst = false := rfl
@[simp] theorem State.releaseReset_waiting (s : State) : s.releaseReset.waiting = s.waiting := rfl
@[simp] theorem State.releaseReset_queue (s : State) : s.releaseReset.queue = s.queue := rfl
@[simp] theorem State.releaseReset_offered (s : State) : s.releaseReset.offered = s.offered := rfl
@[simp] theorem State.releaseReset_delivered (s : State) : s.releaseReset.delivered = s.delivered := rfl
@[simp] theorem State.releaseReset_inputs (s : State) : s.releaseReset.inputs = s.inputs := rfl

@[simp] theorem State.withOldest_rst (s : State) (c : CommandWord) : (s.withOldest c).rst = false := rfl
@[simp] theorem State.withOldest_waiting (s : State) (c : CommandWord) : (s.withOldest c).waiting = none := rfl
@[simp] theorem State.withOldest_queue (s : State) (c : CommandWord) : (s.withOldest c).queue = c :: s.queue.tail := rfl
@[simp] theorem State.withOldest_offered (s : State) (c : CommandWord) : (s.withOldest c).offered = none := rfl
@[simp] theorem State.withOldest_delivered (s : State) (c : CommandWord) : (s.withOldest c).delivered = s.delivered := rfl
@[simp] theorem State.withOldest_inputs (s : State) (c : CommandWord) : (s.withOldest c).inputs = [] := rfl

@[simp] theorem State.reset_rst : State.reset.rst = false := rfl
@[simp] theorem State.reset_waiting : State.reset.waiting = none := rfl
@[simp] theorem State.reset_queue : State.reset.queue = [] := rfl
@[simp] theorem State.reset_offered : State.reset.offered = none := rfl
@[simp] theorem State.reset_delivered : State.reset.delivered = [] := rfl
@[simp] theorem State.reset_inputs : State.reset.inputs = [] := rfl

end Sys2Proof.Machine
end

