-- ==== Sys2Proof/Laws/Ops.lean ====
section
/-!
SUPPORT. Everything an operation of the interface can do, said once: delivery, the FPE's step, and the whole step of the
machine as a list of cases. Proofs about the machine cite `step_cases` and do not unfold the step.
-/

namespace Sys2Proof.Machine

/-- Acceptance happens exactly where reset is released, a command waits and the queue has room (30_encoding.md R49). -/
theorem acceptable_some {s : State} {c : CommandWord} :
    s.acceptable = some c ↔ s.rst = false ∧ s.waiting = some c ∧ s.queue.length < Config.maxOutstanding := by
  simp only [State.acceptable, State.hasRoom]
  cases s.rst <;> cases s.waiting <;> simp [and_comm]

/-- With no command waiting there is none to accept. -/
theorem acceptable_of_waiting_none {s : State} (h : s.waiting = none) : s.acceptable = none := by
  simp only [State.acceptable, h]; split <;> rfl

/-- The FPE may always accept at least one command (00_scope.md R5). -/
theorem maxOutstanding_pos : 0 < Config.maxOutstanding := Nat.succ_pos _

/-- The command the FPE answers next (00_scope.md R8). -/
theorem oldest_some {s : State} {c : CommandWord} :
    s.oldest = some c ↔ s.rst = false ∧ s.offered = none ∧ s.queue.head? = some c := by
  simp only [State.oldest]
  cases s.rst <;> cases s.offered <;> simp

/-- Delivery where a response is offered (10_state.md R26). -/
theorem take_some {s : State} {r : ResponseWord} (hr : s.rst = false) (ho : s.offered = some r) :
    s.take = { s with offered := none, queue := s.queue.tail, delivered := s.delivered ++ [r] } := by
  simp [State.take, hr, ho]

/-- Nothing is delivered where nothing is offered. -/
theorem take_none {s : State} (ho : s.offered = none) : s.take = s := by
  simp only [State.take, ho]; split <;> rfl

/-- Nothing is delivered under reset (70_reset_and_hazards.md R140). -/
theorem take_reset {s : State} (hr : s.rst = true) : s.take = s := by simp [State.take, hr]

/-- The FPE's step: it offers the oldest command's response, or has nothing to answer (30_encoding.md R43). -/
theorem answerOldest_eq (s : State) :
    answerOldest s = .next (match s.oldest with | none => s | some c => s.offer (respondWord c)) := by
  simp only [answerOldest]
  cases s.oldest with
  | none => rfl
  | some c =>
    simp only
    cases h : decode c with
    | ok i => simp only [exec_eq_offer, respondWord_of_decode h]
    | error e => simp only [respondWord_of_error h]; rfl

/-- Everything one step can do. -/
theorem step_cases (s : State) :
    (∃ c, s.acceptable = some c ∧ step s = .next (s.accept c)) ∨
    (∃ c rest, s.acceptable = none ∧ s.inputs = .submit c :: rest ∧ step s = .next (State.submit { s with inputs := rest } c)) ∨
    (∃ rest, s.acceptable = none ∧ s.inputs = .withdraw :: rest ∧ step s = .next (State.withdraw { s with inputs := rest })) ∨
    (∃ rest, s.acceptable = none ∧ s.inputs = .fpe :: rest ∧ step s = answerOldest { s with inputs := rest }) ∨
    (∃ rest, s.acceptable = none ∧ s.inputs = .take :: rest ∧ step s = .next (State.take { s with inputs := rest })) ∨
    (∃ rest, s.acceptable = none ∧ s.inputs = .assertReset :: rest ∧
      step s = .next (State.assertReset { s with inputs := rest })) ∨
    (∃ rest, s.acceptable = none ∧ s.inputs = .releaseReset :: rest ∧
      step s = .next (State.releaseReset { s with inputs := rest })) ∨
    (s.acceptable = none ∧ s.inputs = [] ∧ s.offered.isSome = true ∧ step s = .next s.take) ∨
    (s.acceptable = none ∧ s.inputs = [] ∧ s.offered = none ∧ step s = answerOldest s) := by
  simp only [step, advance]
  cases ha : s.acceptable with
  | some c => exact .inl ⟨c, rfl, rfl⟩
  | none =>
    cases hi : s.inputs with
    | nil =>
      cases ho : s.offered with
      | some r => simp [runOn, ho]
      | none => simp [runOn, ho]
    | cons i rest => cases i <;> simp [applyInput]

/-- The placed command is the one the next step answers (log entry 4). -/
theorem step_withOldest (s : State) (c : CommandWord) :
    step (s.withOldest c) = .next ((s.withOldest c).offer (respondWord c)) := by
  have hw : (s.withOldest c).acceptable = none := acceptable_of_waiting_none rfl
  have ho : (s.withOldest c).oldest = some c := oldest_some.mpr ⟨rfl, rfl, rfl⟩
  rcases step_cases (s.withOldest c) with ⟨_, h, _⟩ | ⟨_, _, _, h, _⟩ | ⟨_, _, h, _⟩ | ⟨_, _, h, _⟩ | ⟨_, _, h, _⟩ |
    ⟨_, _, h, _⟩ | ⟨_, _, h, _⟩ | ⟨_, _, h, _⟩ | ⟨_, _, _, h⟩
  · rw [hw] at h; cases h
  all_goals first | (rw [h, answerOldest_eq, ho]) | simp at h

/-- One step, then the rest. -/
theorem steps_succ {k : Nat} {s t : State} (h : step s = .next t) :
    Safety.steps (k + 1) s = Safety.steps k t := by
  have hc : core.step s = .next t := h
  simp only [Safety.steps, Host.Core.run, hc]
  rfl

@[simp] theorem steps_zero (s : State) : Safety.steps 0 s = .next s := rfl

/-- With nothing to do the machine stays as it is (70_reset_and_hazards.md R145). -/
theorem step_idle {s : State} (hw : s.waiting = none) (hq : s.queue = []) (ho : s.offered = none) (hi : s.inputs = []) :
    step s = .next s := by
  have hold : s.oldest = none := by simp [State.oldest, hq]
  have h := answerOldest_eq s
  rw [hold] at h
  simp only [step, advance, acceptable_of_waiting_none hw, hi, runOn, ho, h]

end Sys2Proof.Machine
end

