-- ==== Sys2Proof/Laws/PerInstr.lean ====
section
/-!
SUPPORT. Lemmas over all commands, one a constructor. The family EncodedFields: the word the encoder makes of a command
holds the command's opcode and its operand fields, and the opcode is an assigned one (30_encoding.md R40, R44).
-/

namespace Sys2Proof.Laws.EncodedFields

open Sys2Proof

/-- 30_encoding.md R40, R44. -/
def Statement (i : Instr) : Prop :=
  opField (encode i) = opcodeOf i ∧ aField (encode i) = (operandsOf i).1 ∧ bField (encode i) = (operandsOf i).2 ∧
  commandAssigned (encode i) = true

theorem of_assigned (i : Instr) (h : (findRow (opcodeOf i)).isSome = true) : Statement i := by
  refine ⟨?_, ?_, ?_, ?_⟩ <;> simp [encode, commandAssigned, h]

theorem add (a b : Word32) : Statement (.add a b) := of_assigned _ rfl
theorem sub (a b : Word32) : Statement (.sub a b) := of_assigned _ rfl
theorem mul (a b : Word32) : Statement (.mul a b) := of_assigned _ rfl
theorem div (a b : Word32) : Statement (.div a b) := of_assigned _ rfl
theorem sign (a : Word32) : Statement (.sign a) := of_assigned _ rfl
theorem abs (a : Word32) : Statement (.abs a) := of_assigned _ rfl
theorem floor (a : Word32) : Statement (.floor a) := of_assigned _ rfl
theorem ceil (a : Word32) : Statement (.ceil a) := of_assigned _ rfl
theorem round (a : Word32) : Statement (.round a) := of_assigned _ rfl
theorem mod (a : Word32) : Statement (.mod a) := of_assigned _ rfl
theorem lt (a b : Word32) : Statement (.lt a b) := of_assigned _ rfl
theorem le (a b : Word32) : Statement (.le a b) := of_assigned _ rfl
theorem gt (a b : Word32) : Statement (.gt a b) := of_assigned _ rfl
theorem ge (a b : Word32) : Statement (.ge a b) := of_assigned _ rfl
theorem eq (a b : Word32) : Statement (.eq a b) := of_assigned _ rfl
theorem sin (a : Word32) : Statement (.sin a) := of_assigned _ rfl
theorem cos (a : Word32) : Statement (.cos a) := of_assigned _ rfl
theorem tan (a : Word32) : Statement (.tan a) := of_assigned _ rfl
theorem atan2 (a b : Word32) : Statement (.atan2 a b) := of_assigned _ rfl
theorem todeg (a : Word32) : Statement (.todeg a) := of_assigned _ rfl
theorem torad (a : Word32) : Statement (.torad a) := of_assigned _ rfl
theorem fromint (a : Word32) : Statement (.fromint a) := of_assigned _ rfl
theorem toint (a : Word32) : Statement (.toint a) := of_assigned _ rfl

end Sys2Proof.Laws.EncodedFields
end

