-- ==== Sys2Proof/Laws/Script.lean ====
section
/-!
SUPPORT. What assembling a line of a command script can do: a line has a command word exactly where it is well-formed
after the labels so far, and answering it adds its label (30_encoding.md R48).
-/

namespace Sys2Proof.Machine

/-- 30_encoding.md R48: a line's label is the newest of the labels after it. -/
theorem bindResult_labels (env : List (String × Word32)) (l : ScriptLine) (r : ResponseWord) :
    (bindResult env l r).map Prod.fst = l.label.toList ++ env.map Prod.fst := by
  simp only [bindResult]
  cases l.label <;> rfl

/-- 30_encoding.md R48: a labelled result is found by its name. -/
theorem lookup_of_label {env : List (String × Word32)} {name : String} (h : name ∈ env.map Prod.fst) :
    ∃ p, env.lookup name = some p := by
  induction env with
  | nil => cases h
  | cons e rest ih =>
    by_cases hn : name = e.1
    · exact ⟨e.2, by simp [List.lookup, hn]⟩
    · have hr : name ∈ rest.map Prod.fst := by simpa [hn] using h
      obtain ⟨p, hp⟩ := ih hr
      exact ⟨p, by simp only [List.lookup, beq_false_of_ne hn, hp]⟩

/-- 30_encoding.md R48: a well-formed operand denotes a pattern. -/
theorem operandPattern_some {env : List (String × Word32)} {o : ScriptOperand}
    (h : o.wellFormed (env.map Prod.fst) = true) : ∃ p, operandPattern env o = some p := by
  cases o with
  | hex p => exact ⟨_, rfl⟩
  | fixedLiteral m p => exact ⟨_, rfl⟩
  | intLiteral n => exact ⟨_, rfl⟩
  | reference name => exact lookup_of_label (by simpa [ScriptOperand.wellFormed] using h)

/-- 30_encoding.md R48: a well-formed line has a command word. -/
theorem lineWord_some {env : List (String × Word32)} {l : ScriptLine} (h : l.wellFormed (env.map Prod.fst) = true) :
    ∃ c, lineWord env l = some c := by
  simp only [ScriptLine.wellFormed, Bool.and_eq_true] at h
  obtain ⟨⟨hcount, hall⟩, -⟩ := h
  cases hm : findMnemonic l.mnemonic with
  | none => rw [hm] at hcount; cases hcount
  | some row =>
    rw [hm] at hcount
    simp only [decide_eq_true_eq] at hcount
    unfold lineWord
    rw [hm]
    cases ha : row.arity with
    | one =>
      rw [ha] at hcount
      match ho : l.operands, hcount with
      | [x], _ =>
        simp only [ho, List.all_cons, List.all_nil, Bool.and_true] at hall
        obtain ⟨p, hp⟩ := operandPattern_some hall
        exact ⟨commandWord row.op p 0, by simp [ha, hp]⟩
    | two =>
      rw [ha] at hcount
      match ho : l.operands, hcount with
      | [x, y], _ =>
        simp only [ho, List.all_cons, List.all_nil, Bool.and_true, Bool.and_eq_true] at hall
        obtain ⟨p, hp⟩ := operandPattern_some hall.1
        obtain ⟨q, hq⟩ := operandPattern_some hall.2
        exact ⟨commandWord row.op p q, by simp [ha, hp, hq]⟩

/-- 30_encoding.md R48: a line assembles exactly where it is well-formed (log entry 16). -/
theorem assembleLine_isSome (env : List (String × Word32)) (l : ScriptLine) :
    (assembleLine env l).isSome = l.wellFormed (env.map Prod.fst) := by
  unfold assembleLine
  cases h : l.wellFormed (env.map Prod.fst) with
  | true =>
    obtain ⟨c, hc⟩ := lineWord_some h
    simp [hc]
  | false => rfl

end Sys2Proof.Machine
end

