-- ==== Sys2Proof/Machine/ScriptText.lean ====
section
/-!
DEFINITION. Reading the text of a command script (30_encoding.md R48): one command a line,
`[name =] MNEMONIC operand [, operand]`, a comment from `;` on. Host-side notation and no part of the FPE. What the rule
leaves open of the text (spaces, the characters of a name, the sign of a literal) is log entry 15.
-/

namespace Sys2Proof.Machine

/-- A space or a tab. -/
def isBlank (c : Char) : Bool := c == ' ' || c == '\t'

/-- The text without blanks at either end. -/
def trimBlanks (text : List Char) : List Char := ((text.dropWhile isBlank).reverse.dropWhile isBlank).reverse

/-- The text before the first `sep`, and the text after it if there is one. -/
def cutAt (sep : Char) (text : List Char) : List Char × Option (List Char) :=
  match text with
  | [] => ([], none)
  | c :: rest => if c == sep then ([], some rest) else (c :: (cutAt sep rest).1, (cutAt sep rest).2)

/-- The value of a digit, decimal or hexadecimal, in either case. -/
def digitValue (c : Char) : Option Nat :=
  if 48 ≤ c.toNat && c.toNat ≤ 57 then some (c.toNat - 48)
  else if 65 ≤ c.toNat && c.toNat ≤ 70 then some (c.toNat - 55)
  else if 97 ≤ c.toNat && c.toNat ≤ 102 then some (c.toNat - 87)
  else none

/-- The digits of a number in the given base, read after `sofar`. -/
def readDigits (base sofar : Nat) (text : List Char) : Option Nat :=
  match text with
  | [] => some sofar
  | c :: rest =>
    match digitValue c with
    | some d => if d < base then readDigits base (sofar * base + d) rest else none
    | none => none

/-- A number in the given base: at least one digit and nothing else. -/
def readNumber (base : Nat) (text : List Char) : Option Nat :=
  if text.isEmpty then none else readDigits base 0 text

/-- Whether the text has a minus sign, and the text after it. -/
def readSign (text : List Char) : Bool × List Char :=
  match text with
  | '-' :: rest => (true, rest)
  | _ => (false, text)

/-- A number with its sign. -/
def withSign (negative : Bool) (n : Nat) : Int := if negative then -(n : Int) else n

/-- A name: letters, digits and underscores, at least one. -/
def readName (text : List Char) : Option String :=
  if !text.isEmpty && text.all (fun c => c.isAlphanum || c == '_') then some (String.ofList text) else none

/-- A Fixed literal, digits on both sides of a point (30_encoding.md R48). -/
def readFixedLiteral (text : List Char) : Option ScriptOperand :=
  let signed := readSign text
  match cutAt '.' signed.2 with
  | (whole, some fraction) =>
    match readNumber 10 whole, readNumber 10 fraction with
    | some w, some f => some (.fixedLiteral (withSign signed.1 (w * 10 ^ fraction.length + f)) fraction.length)
    | _, _ => none
  | (_, none) => none

/-- An operand in one of the forms of 30_encoding.md R48, or one of the two names `MAX` and `MIN` that
95_test_vectors.md writes for the patterns of 00_scope.md R5. -/
def readOperand (text : List Char) : Option ScriptOperand :=
  match text with
  | '0' :: 'x' :: digits =>
    if digits.length = 8 then (readNumber 16 digits).map fun n => .hex (BitVec.ofNat 32 n) else none
  | '#' :: rest =>
    let signed := readSign rest
    (readNumber 10 signed.2).map fun n => .intLiteral (withSign signed.1 n)
  | '%' :: name => (readName name).map .reference
  | ['M', 'A', 'X'] => some (.hex 0x7FFFFFFF#32)
  | ['M', 'I', 'N'] => some (.hex 0x80000000#32)
  | _ => readFixedLiteral text

/-- The operands, separated by a comma: one or two (30_encoding.md R48). -/
def readOperands (text : List Char) : Option (List ScriptOperand) :=
  match cutAt ',' text with
  | (x, none) => (readOperand (trimBlanks x)).map fun a => [a]
  | (x, some y) =>
    match readOperand (trimBlanks x), readOperand (trimBlanks y) with
    | some a, some b => some [a, b]
    | _, _ => none

/-- A command: the mnemonic up to the first blank, then the operands. Which mnemonics there are is a matter of
well-formedness. -/
def readCommand (label : Option String) (text : List Char) : Option ScriptLine :=
  (readOperands (text.dropWhile fun c => !isBlank c)).map fun operands =>
    ⟨label, String.ofList (text.takeWhile fun c => !isBlank c), operands⟩

/-- The command of a line without its comment and outer blanks. -/
def readLabelled (text : List Char) : Option ScriptLine :=
  match cutAt '=' text with
  | (_, none) => readCommand none text
  | (name, some rest) =>
    match readName (trimBlanks name) with
    | some n => readCommand (some n) (trimBlanks rest)
    | none => none

/-- The lines of a script; a line with nothing but blanks and a comment is no command (30_encoding.md R48). Nothing where
a line has not the form of the rule. -/
def readScript (lines : List (List Char)) : Option (List ScriptLine) :=
  match lines with
  | [] => some []
  | text :: rest =>
    let body := trimBlanks (cutAt ';' text).1
    if body.isEmpty then readScript rest
    else
      match readLabelled body, readScript rest with
      | some l, some ls => some (l :: ls)
      | _, _ => none

end Sys2Proof.Machine
end

