-- ==== Sys2Proof/Tests/Slice0.lean ====
section
/-!
SUPPORT. The model's own tests: the WellFormed smoke, decoding of words written out from 30_encoding.md R40 and R44,
responses to the vectors of 95_test_vectors.md and of the rules' own corner cases, and for every obligation with
hypotheses a witness that meets them. Expected values come from the spec, never from the model.
-/

namespace Sys2Proof.Tests

open Sys2Proof Sys2Proof.Machine Sys2Proof.Safety

/-! ## Helpers -/

/-- A machine whose next step answers `c`. -/
def ready (c : CommandWord) : State := { State.reset with queue := [c] }

/-- The response that one step from `ready c` offers. -/
def answered (c : CommandWord) : Option ResponseWord :=
  match step (ready c) with
  | .next t => t.offered
  | .fault _ => none
  | .refused _ => none

/-! ## Well-formedness: one ill-formed term for each check -/

/-- R45: an unassigned opcode. -/
theorem test_word_unassigned : commandAssigned 0x040001000000028000#72 = false := by decide
theorem test_word_assigned : commandAssigned 0x000001000000028000#72 = true := by decide
/-- R42: no operand value of a command is illegal. -/
theorem test_command_wellFormed : (Instr.sin 0x80000000#32).wellFormed = true := by decide
/-- R48: the mnemonic is one of the 23, in capitals. -/
theorem test_line_mnemonic : ScriptLine.wellFormed [] ⟨none, "add", [.hex 1, .hex 2]⟩ = false := by decide
/-- R48: a two-operand command takes two. -/
theorem test_line_too_few : ScriptLine.wellFormed [] ⟨none, "ADD", [.hex 1]⟩ = false := by decide
/-- R48: a one-operand command takes one. -/
theorem test_line_too_many : ScriptLine.wellFormed [] ⟨none, "SIN", [.hex 1, .hex 2]⟩ = false := by decide
/-- R48: `fx(r)` outside `MIN..MAX`: 32768.0 is one too many (R58). -/
theorem test_line_fixed_range :
    ScriptLine.wellFormed [] ⟨none, "SIN", [.fixedLiteral 327680 1]⟩ = false := by decide +kernel
/-- R48: `#2147483648` is outside `MIN..MAX`. -/
theorem test_line_int_range : ScriptLine.wellFormed [] ⟨none, "FROMINT", [.intLiteral 2147483648]⟩ = false := by decide
/-- R48: a reference names an earlier line. -/
theorem test_line_reference : ScriptLine.wellFormed ["s"] ⟨none, "SIN", [.reference "c"]⟩ = false := by decide
/-- R48: labels are distinct (log entry 7). -/
theorem test_line_label : ScriptLine.wellFormed ["s"] ⟨some "s", "SIN", [.hex 1]⟩ = false := by decide

/-! ## Decoding: every constructor from a word written out from R40 and R44 -/

theorem test_decode_add : decode 0x000001000000028000#72 = .ok (.add 0x00010000#32 0x00028000#32) := by decide
theorem test_decode_sub : decode 0x010001000000028000#72 = .ok (.sub 0x00010000#32 0x00028000#32) := by decide
theorem test_decode_mul : decode 0x0200028000FFFE8000#72 = .ok (.mul 0x00028000#32 0xFFFE8000#32) := by decide
theorem test_decode_div : decode 0x03FFF9000000020000#72 = .ok (.div 0xFFF90000#32 0x00020000#32) := by decide
theorem test_decode_sign : decode 0x10FFFD800000000000#72 = .ok (.sign 0xFFFD8000#32) := by decide
theorem test_decode_abs : decode 0x11FFFD800000000000#72 = .ok (.abs 0xFFFD8000#32) := by decide
theorem test_decode_floor : decode 0x12FFFD800000000000#72 = .ok (.floor 0xFFFD8000#32) := by decide
theorem test_decode_ceil : decode 0x130002800000000000#72 = .ok (.ceil 0x00028000#32) := by decide
theorem test_decode_round : decode 0x1400028000DEADBEEF#72 = .ok (.round 0x00028000#32) := by decide
theorem test_decode_mod : decode 0x15FFFFC00000000000#72 = .ok (.mod 0xFFFFC000#32) := by decide
theorem test_decode_lt : decode 0x20FFFFFFFF00000000#72 = .ok (.lt 0xFFFFFFFF#32 0x00000000#32) := by decide
theorem test_decode_le : decode 0x210002800000028000#72 = .ok (.le 0x00028000#32 0x00028000#32) := by decide
theorem test_decode_gt : decode 0x220001000000028000#72 = .ok (.gt 0x00010000#32 0x00028000#32) := by decide
theorem test_decode_ge : decode 0x23FFFF0000FFFE0000#72 = .ok (.ge 0xFFFF0000#32 0xFFFE0000#32) := by decide
theorem test_decode_eq : decode 0x240001000000010001#72 = .ok (.eq 0x00010000#32 0x00010001#32) := by decide
theorem test_decode_sin : decode 0x3000010000FFFFFFFF#72 = .ok (.sin 0x00010000#32) := by decide
theorem test_decode_cos : decode 0x3100010C1500000000#72 = .ok (.cos 0x00010C15#32) := by decide
theorem test_decode_tan : decode 0x320001922000000000#72 = .ok (.tan 0x00019220#32) := by decide
theorem test_decode_atan2 : decode 0x330000000300000007#72 = .ok (.atan2 0x00000003#32 0x00000007#32) := by decide
theorem test_decode_todeg : decode 0x34023BE8D700000000#72 = .ok (.todeg 0x023BE8D7#32) := by decide
theorem test_decode_torad : decode 0x3500B4000000000000#72 = .ok (.torad 0x00B40000#32) := by decide
theorem test_decode_fromint : decode 0x4000000003DEADBEEF#72 = .ok (.fromint 0x00000003#32) := by decide
theorem test_decode_toint : decode 0x41FFFD800000000001#72 = .ok (.toint 0xFFFD8000#32) := by decide

/-! One word a family, field by field in bits (R40: `op` 71:64, `afield` 63:32, `bfield` 31:0). -/

theorem test_bits_arithmetic :
    decode (0b00000010#8 ++
      0b00000000000000101000000000000000#32 ++
      0b11111111111111101000000000000000#32) = .ok (.mul 0x00028000#32 0xFFFE8000#32) := by decide
theorem test_bits_rounding :
    decode (0b00010011#8 ++
      0b00000000000000101000000000000001#32 ++
      0b00000000000000000000000000000000#32) = .ok (.ceil 0x00028001#32) := by decide
theorem test_bits_comparison :
    decode (0b00100010#8 ++
      0b10000000000000000000000000000000#32 ++
      0b01111111111111111111111111111111#32) = .ok (.gt 0x80000000#32 0x7FFFFFFF#32) := by decide
theorem test_bits_trigonometric :
    decode (0b00110011#8 ++
      0b00000000000000000000000000000011#32 ++
      0b00000000000000000000000000000111#32) = .ok (.atan2 0x00000003#32 0x00000007#32) := by decide
theorem test_bits_angle :
    decode (0b00110101#8 ++
      0b00000000101101000000000000000000#32 ++
      0b00000000000000000000000000000000#32) = .ok (.torad 0x00B40000#32) := by decide
theorem test_bits_conversion :
    decode (0b01000000#8 ++
      0b11111111111111111000000000000000#32 ++
      0b00000000000000000000000000000000#32) = .ok (.fromint 0xFFFF8000#32) := by decide

/-- R45: the neighbours of the assigned ranges are rejected by name. -/
theorem test_decode_unassigned :
    [0x04#8, 0x0F#8, 0x16#8, 0x1F#8, 0x25#8, 0x2F#8, 0x36#8, 0x3F#8, 0x42#8, 0x80#8, 0xFF#8].all
      (fun op => decode (commandWord op 0x12345678#32 0x9ABCDEF0#32) = .error (.unassigned op)) = true := by decide
/-- R48: the assembler writes 0 in an ignored `bfield`. -/
theorem test_encode_round : encode (.round 0x00028000#32) = 0x140002800000000000#72 := by decide
/-- spec/opcode_table.json numbers the whole 72 bits as one word. -/
theorem test_decodeTableWord : decodeTableWord 72 0x330000000300000007 = some (.atan2 3#32 7#32) := by decide

/-! ## One step a command: at most two vectors an instruction, from 95_test_vectors.md section 2 -/

theorem test_add_1 : answered 0x00400000003FFFFFFF#72 = some 0x007FFFFFFF#40 := by decide
theorem test_add_2 : answered 0x00C0000000BFFFFFFF#72 = some 0x0180000000#40 := by decide
theorem test_sub_1 : answered 0x010000000080000000#72 = some 0x017FFFFFFF#40 := by decide
theorem test_sub_2 : answered 0x01FFFFFFFF80000000#72 = some 0x007FFFFFFF#40 := by decide
theorem test_mul_1 : answered 0x02FFFFFFFD00008000#72 = some 0x00FFFFFFFF#40 := by decide
theorem test_mul_2 : answered 0x027FFFFFFF80000000#72 = some 0x0180000000#40 := by decide
theorem test_div_1 : answered 0x03800000007FFFFFFF#72 = some 0x00FFFF0000#40 := by decide
theorem test_div_2 : answered 0x030000000000000000#72 = some 0x0200000000#40 := by decide
theorem test_sign_1 : answered 0x10FFFFFFFF00000000#72 = some 0x00FFFF0000#40 := by decide
theorem test_sign_2 : answered 0x100000000100000000#72 = some 0x0000010000#40 := by decide
theorem test_abs_1 : answered 0x118000000000000000#72 = some 0x017FFFFFFF#40 := by decide
theorem test_abs_2 : answered 0x118000000100000000#72 = some 0x007FFFFFFF#40 := by decide
theorem test_floor_1 : answered 0x12FFFFFFFF00000000#72 = some 0x00FFFF0000#40 := by decide
theorem test_floor_2 : answered 0x128000FFFF00000000#72 = some 0x0080000000#40 := by decide
theorem test_ceil_1 : answered 0x137FFF000100000000#72 = some 0x017FFFFFFF#40 := by decide
theorem test_ceil_2 : answered 0x13FFFFFFFF00000000#72 = some 0x0000000000#40 := by decide
theorem test_round_1 : answered 0x14FFFD800000000000#72 = some 0x00FFFE0000#40 := by decide
theorem test_round_2 : answered 0x147FFF800000000000#72 = some 0x017FFFFFFF#40 := by decide
theorem test_mod_1 : answered 0x15FFFFC00000000000#72 = some 0x000000C000#40 := by decide
theorem test_mod_2 : answered 0x158000000100000000#72 = some 0x0000000001#40 := by decide
theorem test_lt_1 : answered 0x20FFFFFFFF00000000#72 = some 0x0000000001#40 := by decide
theorem test_lt_2 : answered 0x208000000080000000#72 = some 0x0000000000#40 := by decide
theorem test_le_1 : answered 0x218000000080000000#72 = some 0x0000000001#40 := by decide
theorem test_le_2 : answered 0x2100000000FFFFFFFF#72 = some 0x0000000000#40 := by decide
theorem test_gt_1 : answered 0x227FFFFFFF80000000#72 = some 0x0000000001#40 := by decide
theorem test_gt_2 : answered 0x227FFFFFFF7FFFFFFF#72 = some 0x0000000000#40 := by decide
theorem test_ge_1 : answered 0x237FFFFFFF7FFFFFFF#72 = some 0x0000000001#40 := by decide
theorem test_ge_2 : answered 0x238000000080000001#72 = some 0x0000000000#40 := by decide
theorem test_eq_1 : answered 0x247FFFFFFF7FFFFFFF#72 = some 0x0000000001#40 := by decide
theorem test_eq_2 : answered 0x240001000000010001#72 = some 0x0000000000#40 := by decide
theorem test_sin_1 : answered 0x3000010000FFFFFFFF#72 = some 0x000000D76B#40 := by decide +kernel
theorem test_sin_2 : answered 0x308000000000000000#72 = some 0x00FFFF1278#40 := by decide +kernel
theorem test_cos_1 : answered 0x310003000000000000#72 = some 0x00FFFF0290#40 := by decide +kernel
theorem test_cos_2 : answered 0x317FFFFFFF00000000#72 = some 0x0000005F7A#40 := by decide +kernel
theorem test_tan_1 : answered 0x320001922000000000#72 = some 0x0180000000#40 := by decide +kernel
theorem test_tan_2 : answered 0x320003000000000000#72 = some 0x00FFFFDB83#40 := by decide +kernel
theorem test_atan2_1 : answered 0x33FFFFFFFF80000000#72 = some 0x00FFFCDBC1#40 := by decide +kernel
theorem test_atan2_2 : answered 0x338000000080000000#72 = some 0x00FFFDA4D0#40 := by decide +kernel
theorem test_todeg_1 : answered 0x34FDC4172A00000000#72 = some 0x0080000014#40 := by decide
theorem test_todeg_2 : answered 0x34FDC4172900000000#72 = some 0x0180000000#40 := by decide
theorem test_torad_1 : answered 0x3500B4000000000000#72 = some 0x000003243F#40 := by decide
theorem test_torad_2 : answered 0x35FFFFFFC700000000#72 = some 0x0000000000#40 := by decide
theorem test_fromint_1 : answered 0x40FFFF7FFF00000000#72 = some 0x0180000000#40 := by decide
theorem test_fromint_2 : answered 0x4000000003DEADBEEF#72 = some 0x0000030000#40 := by decide
theorem test_toint_1 : answered 0x41FFFD800000000001#72 = some 0x00FFFFFFFE#40 := by decide
theorem test_toint_2 : answered 0x41FFFF000100000000#72 = some 0x0000000000#40 := by decide
/-- 95_test_vectors.md section 2.7: an unassigned opcode. -/
theorem test_unassigned : answered 0xFF123456789ABCDEF0#72 = some 0x0400000000#40 := by decide +kernel

/-! ## The trigonometric core: the worked examples of R94, R96, R97, R98 and the traces of 95_test_vectors.md section 3 -/

theorem test_phase_minus_one : phaseOf (-65536) = 3611402020 := by decide
theorem test_phase_min : phaseOf (-2147483648) = 0xCF923637 := by decide
/-- Section 3.1, rows 0 and 1: the second iteration reads the values before it. -/
theorem test_rotate_trace :
    rotateFrom 0 [536870912, 316933406] ⟨652032874, 0, 683565275⟩ = ⟨326016437, 978049311, -170239043⟩ := by decide
theorem test_rotate : cordicRotate 683565275 = (580145181, 903522591) := by decide +kernel
/-- Section 3.2, rows 0 and 1. -/
theorem test_vector_trace :
    vectorFrom 0 [536870912, 316933406] ⟨3758096384, 1610612736, 0⟩ = ⟨6442450944, 536870912, 219937506⟩ := by decide
theorem test_vector : cordicVector 3758096384 1610612736 = 276769965 := by decide +kernel
theorem test_vector_diagonal : cordicVector 2147483648 2147483648 = 536870911 := by decide +kernel
theorem test_round_clamp : roundQ30ToQ16 (-5) = 0 ∧ roundQ30ToQ16 1073741828 = 65536 := by decide
/-- 95_test_vectors.md section 2.6: `ATAN2 0x00000001, 0x00010000` has `n = 15` and `z = 10427`. -/
theorem test_atanShift : atanShift 0x00010000 0x00000001 = 15 ∧ atanAngle 0x00010000 0x00000001 = 10427 := by
  decide +kernel
/-- R107: the asymptote branch, which no operand reaches. -/
theorem test_tan_asymptote :
    tanQuotient (-1) 0 = 0x0180000000#40 ∧ tanQuotient 0 0 = 0x017FFFFFFF#40 := by decide

/-! ## Conversions left to the host, and the script -/

/-- R58: `from_real(0.1) = 6554`, `from_real(-0.1) = -6554`, `from_real(32768.0)` saturates. -/
theorem test_fromReal :
    fromReal (1 / 10) = (6554, false) ∧ fromReal (-1 / 10) = (-6554, false) ∧
    fromReal 32768 = (2147483647, true) := by decide +kernel
/-- 95_test_vectors.md section 2.1: half an ulp rounds up, on either side of 0. -/
theorem test_fromReal_tie : fromReal (1 / 131072) = (1, false) ∧ fromReal (-1 / 131072) = (0, false) := by
  decide +kernel
/-- R59, R21: `0x7FFFFFFF` is 32767.9999847412109375. -/
theorem test_toReal : toReal 0xFFFE8000#32 = -3 / 2 := by decide +kernel

/-- 95_test_vectors.md P1, lines 1 to 3. -/
def scriptP1 : List ScriptLine := [
  ⟨some "h", "ROUND", [.fixedLiteral 25 1]⟩,
  ⟨some "t", "FROMINT", [.intLiteral 3]⟩,
  ⟨some "ok", "EQ", [.reference "h", .reference "t"]⟩]

/-- 95_test_vectors.md P1, lines 1 to 3, as text (R48). -/
theorem test_script_text :
    readScript ["h = ROUND 2.5   ; a tie".toList, "  ; nothing".toList, "t = FROMINT #3".toList,
      "ok = EQ %h, %t".toList] = some scriptP1 := by decide +kernel
/-- R48: the operand forms, `MIN` of 95_test_vectors.md P6, and a pattern with too few digits. -/
theorem test_operand_text :
    readOperand "0x0001921F".toList = some (.hex 0x0001921F#32) ∧
    readOperand "-0.25".toList = some (.fixedLiteral (-25) 2) ∧ readOperand "#-7".toList = some (.intLiteral (-7)) ∧
    readOperand "MIN".toList = some (.hex 0x80000000#32) ∧ readOperand "0x1921F".toList = none ∧
    readOperand "3".toList = none := by decide +kernel
/-- R59: a type that holds every Fixed value gives the value itself. -/
theorem test_toRealInto (p : Word32) : toRealInto (fun _ => True) p (toReal p) :=
  ⟨trivial, le_refl _, mul_self_nonneg _, fun _ _ h _ => h⟩

theorem test_script_assembles :
    assembleLine [] ⟨none, "ADD", [.fixedLiteral 10 1, .fixedLiteral (-25) 1]⟩ = some 0x0000010000FFFD8000#72 := by
  decide +kernel
/-- R48: the first integer literal outside `MIN..MAX` assembles to nothing (log entry 16); the last inside does. -/
theorem test_script_literal_range :
    assembleLine [] ⟨none, "FROMINT", [.intLiteral 2147483648]⟩ = none ∧
    assembleLine [] ⟨none, "FROMINT", [.intLiteral (-2147483648)]⟩ = some 0x408000000000000000#72 := by decide +kernel
theorem test_script_p1 : runScript [] scriptP1 = some [0x0000030000#40, 0x0000030000#40, 0x0000000001#40] := by
  decide +kernel

/-! ## The interface -/

/-- R49 item 1: a full queue makes the host wait. -/
theorem test_full_queue_waits (c d : CommandWord) :
    ({ State.reset with waiting := some c, queue := List.replicate Config.maxOutstanding d } : State).acceptable
      = none := by
  simp [State.acceptable, State.hasRoom]
/-- R140: a response offered and not yet taken is withdrawn by reset. -/
theorem test_reset_withdraws :
    State.assertReset { ready 0#72 with offered := some 0#40 } = { State.reset with rst := true } := by decide
/-- The host's two questions of a row: its command placed and run as the first after reset. -/
theorem test_withFetchWord :
    (match step (State.reset.withFetchWord 72 0x340001000000000000) with
      | .next t => t.offered
      | .fault _ => none
      | .refused _ => none) = some 0x0000394BB8#40 := by decide +kernel

/-! ## Witnesses: concrete states and operands that meet the hypotheses of the obligations -/

/-- `ADD 1.0, 2.5` (R65's example). -/
def sampleCommand : CommandWord := 0x000001000000028000#72

/-- Its response. -/
def sampleResponse : ResponseWord := 0x0000038000#40

/-- The machine with the sample command answered and its response not yet taken. -/
def answeredState : State := { ready sampleCommand with offered := some sampleResponse }

/-- The machine under reset, a host submitting. -/
def underReset : State := { State.reset with rst := true, waiting := some sampleCommand }

/-- A full queue, a host submitting. -/
def fullState : State :=
  { State.reset with waiting := some 0#72, queue := List.replicate Config.maxOutstanding sampleCommand }

theorem sample_decodes : decode sampleCommand = .ok (.add 0x00010000#32 0x00028000#32) := by decide
theorem sample_answered : respondWord sampleCommand = sampleResponse := by decide

theorem ready_inv (c : CommandWord) (ins : List Input) : Inv { ready c with inputs := ins } :=
  ⟨maxOutstanding_pos, fun _ h => (by cases h), fun h => by cases h⟩

theorem answeredState_inv (ins : List Input) : Inv { answeredState with inputs := ins } :=
  ⟨maxOutstanding_pos, fun r h => (by cases h; exact congrArg some sample_answered), fun h => by cases h⟩

theorem underReset_inv : Inv underReset := ⟨Nat.zero_le _, fun _ h => (by cases h), fun _ => ⟨rfl, rfl⟩⟩

theorem submitted_inv (c : CommandWord) : Inv (State.reset.submit c) :=
  ⟨Nat.zero_le _, fun _ h => (by cases h), fun h => by cases h⟩

theorem ready_steps : step (ready sampleCommand) = .next answeredState := by
  have h := step_withOldest State.reset sampleCommand
  rw [sample_answered] at h
  exact h

theorem witness_DecodeEncodeAgree :
    (Instr.atan2 0x80000000#32 0xFFFFFFFF#32).wellFormed = true ∧ (Instr.sin 0xFFFFFFFF#32).wellFormed = true := by
  decide
theorem witness_ResponseWordIsItsFields :
    (-2147483648 : Int) ≤ -2147483648 ∧ (-2147483648 : Int) ≤ 2147483647 ∧ (2147483647 : Int) ≤ 2147483647 := by decide
theorem witness_UnassignedOpcodesAnswerIll :
    commandAssigned 0x040000000000000000#72 = false ∧ commandAssigned 0x420000000000000000#72 = false ∧
    commandAssigned 0xFF0000000000000000#72 = false ∧ commandAssigned 0x030000000000000000#72 = true ∧
    commandAssigned 0x410000000000000000#72 = true := by decide
theorem witness_DecodedCommandHasTheWordsFields :
    decode sampleCommand = .ok (.add 0x00010000#32 0x00028000#32) ∧
    decode 0x1400028000DEADBEEF#72 = .ok (.round 0x00028000#32) := by decide
theorem witness_OneOperandCommandsIgnoreSecondField :
    ∃ row ∈ opcodeTable, row.arity = .one ∧ row.op = 0x14#8 :=
  ⟨⟨0x14, "ROUND", .one, .fixed, .fixed, fun a _ => .round a⟩, by simp [opcodeTable], rfl, rfl⟩
theorem witness_StepRunsDecodedCommand :
    ∃ s : State, s.rst = false ∧ s.acceptable = none ∧ s.offered = none ∧ s.queue = [sampleCommand] ∧
      decode sampleCommand = .ok (.add 0x00010000#32 0x00028000#32) ∧ s.inputs = [] :=
  ⟨ready sampleCommand, rfl, rfl, rfl, rfl, sample_decodes, rfl⟩
theorem witness_StepRunsDecodedCommand_listed :
    ∃ s : State, s.rst = false ∧ s.acceptable = none ∧ s.offered = none ∧ s.queue = [sampleCommand] ∧
      decode sampleCommand = .ok (.add 0x00010000#32 0x00028000#32) ∧ s.inputs = [.fpe, .take] :=
  ⟨{ ready sampleCommand with inputs := [.fpe, .take] }, rfl, rfl, rfl, rfl, sample_decodes, rfl⟩
theorem witness_StepAnswersUnassignedOpcode :
    ∃ s : State, s.rst = false ∧ s.acceptable = none ∧ s.offered = none ∧ s.queue = [0x990001000000010000#72] ∧
      decode 0x990001000000010000#72 = .error (.unassigned 0x99#8) ∧ s.inputs = [] :=
  ⟨ready 0x990001000000010000#72, rfl, rfl, rfl, rfl, by decide, rfl⟩
theorem witness_StepAnswersUnassignedOpcode_listed :
    ∃ s : State, s.rst = false ∧ s.acceptable = none ∧ s.offered = none ∧ s.queue = [0x990001000000010000#72] ∧
      decode 0x990001000000010000#72 = .error (.unassigned 0x99#8) ∧ s.inputs = [.fpe] :=
  ⟨{ ready 0x990001000000010000#72 with inputs := [.fpe] }, rfl, rfl, rfl, rfl, by decide, rfl⟩
theorem witness_CommandsChangeOnlyTheOfferedResponse :
    ∃ t, exec (.add 0x00010000#32 0x00028000#32) answeredState = .next t := ⟨_, exec_eq_offer _ _⟩
theorem witness_MachineAnswersWithThePureFunction :
    decode 0x330000000300000007#72 = .ok (.atan2 0x00000003#32 0x00000007#32) := by decide
theorem witness_StepKeepsInterfaceInvariant :
    Inv (ready sampleCommand) ∧ step (ready sampleCommand) = .next answeredState := ⟨ready_inv _ [], ready_steps⟩
theorem witness_DeliveredResponsesStayFormed :
    ∃ s t : State, Inv s ∧ s.delivered = [sampleResponse] ∧ (∀ r ∈ s.delivered, ResponseFormed r) ∧
      step s = .next t ∧ t.delivered = [sampleResponse, sampleResponse] :=
  ⟨{ answeredState with delivered := [sampleResponse] }, _,
    ⟨maxOutstanding_pos, fun r h => (by cases h; exact congrArg some sample_answered), fun h => by cases h⟩, rfl,
    fun r h => by cases List.mem_singleton.mp h; exact ⟨by decide, by decide⟩, rfl, rfl⟩
theorem witness_QueueChangesOnlyByTheContract_unchanged :
    Inv State.reset ∧ step State.reset = .next State.reset :=
  ⟨⟨Nat.zero_le _, fun _ h => (by cases h), fun h => by cases h⟩, step_idle rfl rfl rfl rfl⟩
theorem submitted_steps (c : CommandWord) : step (State.reset.submit c) = .next ((State.reset.submit c).accept c) := by
  have h : (State.reset.submit c).acceptable = some c := acceptable_some.mpr ⟨rfl, rfl, maxOutstanding_pos⟩
  simp only [step, advance, h]
theorem witness_QueueChangesOnlyByTheContract_accepted :
    Inv (State.reset.submit 0#72) ∧ step (State.reset.submit 0#72) = .next ((State.reset.submit 0#72).accept 0#72) :=
  ⟨submitted_inv _, submitted_steps _⟩
theorem witness_QueueChangesOnlyByTheContract_delivered :
    Inv answeredState ∧ step answeredState = .next answeredState.take := ⟨answeredState_inv [], rfl⟩
theorem witness_QueueChangesOnlyByTheContract_reset :
    Inv { answeredState with inputs := [.assertReset] } ∧
    step { answeredState with inputs := [.assertReset] } = .next answeredState.assertReset :=
  ⟨answeredState_inv _, rfl⟩
theorem witness_AcceptedCommandsAreAnsweredInOrder :
    Inv (ready sampleCommand) ∧ (ready sampleCommand).rst = false ∧ (ready sampleCommand).waiting = none ∧
    (ready sampleCommand).inputs = [] ∧ (ready sampleCommand).queue = [sampleCommand] :=
  ⟨ready_inv _ [], rfl, rfl, rfl, rfl⟩
theorem witness_SubmittedCommandIsAnswered :
    Idle { State.reset with inputs := [.submit sampleCommand] } ∧
    ({ State.reset with inputs := [.submit sampleCommand] } : State).inputs = [.submit sampleCommand] :=
  ⟨⟨rfl, rfl, rfl, rfl⟩, rfl⟩
theorem witness_SubmittedCommandIsAnswered_taken :
    ∃ s : State, s.acceptable = none ∧ s.inputs = [.take, .fpe] ∧ s.rst = false ∧ s.offered = some sampleResponse ∧
      s.queue = [sampleCommand] :=
  ⟨{ answeredState with inputs := [.take, .fpe] }, rfl, rfl, rfl, rfl, rfl⟩
theorem witness_SubmittedCommandIsAnswered_nothing_offered :
    ∃ s : State, s.acceptable = none ∧ s.inputs = [.take] ∧ s.offered = none ∧ s.queue = [sampleCommand] :=
  ⟨{ ready sampleCommand with inputs := [.take] }, rfl, rfl, rfl, rfl⟩
theorem witness_ResponseDependsOnTheCommandOnly :
    ∃ s s' : State, s ≠ s' ∧ s.oldest = some sampleCommand ∧ s'.oldest = some sampleCommand ∧ s.acceptable = none ∧
      s'.acceptable = none ∧ s.inputs = [] ∧ s'.inputs = [] :=
  ⟨ready sampleCommand, { ready sampleCommand with queue := [sampleCommand, 0#72], delivered := [0#40] }, by decide,
    rfl, rfl, rfl, rfl, rfl, rfl⟩
theorem witness_ResetDiscardsUnansweredCommands :
    ∃ s : State, s.acceptable = none ∧ s.queue = [sampleCommand] ∧ s.offered = some sampleResponse ∧
      s.inputs = [.assertReset, .releaseReset] :=
  ⟨{ answeredState with inputs := [.assertReset, .releaseReset] }, rfl, rfl, rfl, rfl⟩
theorem witness_NothingMovesUnderReset :
    Inv underReset ∧ underReset.rst = true ∧ underReset.waiting = some sampleCommand ∧
    step underReset = .next underReset :=
  ⟨underReset_inv, rfl, rfl, rfl⟩
theorem witness_AcceptedAtOnceUnlessFull_room :
    (State.reset.submit 0#72).rst = false ∧ (State.reset.submit 0#72).waiting = some 0#72 ∧
    (State.reset.submit 0#72).queue.length < Config.maxOutstanding := ⟨rfl, rfl, maxOutstanding_pos⟩
theorem witness_AcceptedAtOnceUnlessFull_full :
    fullState.rst = false ∧ fullState.waiting = some 0#72 ∧ Config.maxOutstanding ≤ fullState.queue.length ∧
    ∃ t, step fullState = .next t := by
  refine ⟨rfl, rfl, by simp [fullState], ?_⟩
  have h : fullState.acceptable = none := by simp [fullState, State.acceptable, State.hasRoom]
  have ho : fullState.offered = none := rfl
  have hi : fullState.inputs = [] := rfl
  exact ⟨_, by simp only [step, advance, h, hi, runOn, ho]; exact answerOldest_eq _⟩
theorem witness_UnacceptedCommandIsTheHosts :
    ({ underReset with inputs := [.submit 0#72] } : State).acceptable = none ∧
    ({ underReset with inputs := [.withdraw] } : State).acceptable = none := ⟨rfl, rfl⟩
theorem witness_WhichCommandRaisesWhat :
    satBit (respondInstr (.abs 0x80000000#32)) = true ∧ dbzBit (respondInstr (.div 0#32 0#32)) = true := by decide
theorem witness_FlagFixesTheResultField :
    satBit (respondWord 0x007FFFFFFF00000001#72) = true ∧ dbzBit (respondWord 0x030001000000000000#72) = true ∧
    illBit (respondWord 0x040001000000028000#72) = true := by decide
theorem witness_DivAnswersTruncatedQuotientOrDbz :
    (0x00000000#32).toInt = 0 ∧ ¬ (0x00000001#32).toInt = 0 ∧ ¬ (0xFFFFFFFF#32).toInt = 0 := by decide
theorem witness_AddAndSubAreMutualInverses :
    satBit (addResponse 0x40000000#32 0x3FFFFFFF#32) = false ∧ satBit (subResponse 0xFFFFFFFF#32 0x80000000#32) = false := by
  decide
theorem witness_AddAndSubAreMonotone :
    (0x80000000#32).toInt ≤ (0x7FFFFFFF#32).toInt ∧ (0x00000001#32).toInt ≤ (0x00000001#32).toInt := by decide
theorem witness_SignAnswersFixedUnit :
    (0x00000001#32).toInt > 0 ∧ (0x00000000#32).toInt = 0 ∧ (0xFFFFFFFF#32).toInt < 0 := by decide
theorem witness_AbsAnswersMagnitude : (0x80000001#32 : Word32) ≠ 0x80000000#32 := by decide
theorem witness_RoundingLaws :
    resultField (modResponse 0x80000000#32) = 0 ∧ resultField (modResponse 0x7FFF0001#32) ≠ 0 ∧
    (resultField (modResponse 0x7FFF7FFF#32)).toInt < 0x8000 ∧
    (resultField (modResponse 0x7FFF8000#32)).toInt ≥ 0x8000 ∧
    (0x80000000#32).toInt ≤ (0x7FFFFFFF#32).toInt ∧ (0x7FFF0000#32 : Word32).extractLsb' 0 16 = 0 ∧
    satBit (ceilResponse 0x7FFF0000#32) = false ∧ satBit (roundResponse 0x7FFF7FFF#32) = false := by decide
theorem witness_ComparisonLaws :
    resultField (leResponse 0x80000000#32 0#32) = 1#32 ∧ resultField (leResponse 0#32 0x7FFFFFFF#32) = 1#32 := by decide
theorem witness_RotationFollowsItsRecurrence :
    (683565275 : Int) ≥ 0 ∧ (rotateFrom 0 [536870912, 316933406] ⟨652032874, 0, 683565275⟩).z < 0 := by decide
theorem witness_VectoringFollowsItsRecurrence :
    (1610612736 : Int) ≥ 0 ∧ (vectorFrom 0 [536870912] ⟨3758096384, 1610612736, 0⟩).y < 0 := by decide
theorem witness_RangesByConstruction :
    (0 : Int) ≤ 2147483648 ∧ (2147483648 : Int) ≤ 2 ^ 31 ∧ 1 ≤ 1 ∧ 1 ≤ 2 ^ 31 ∧ 2147483648 ≤ 2 ^ 31 ∧
    atanShift 1 1 = 31 ∧ atanShift 2147483648 1 = 0 := by decide
/-- 95_test_vectors.md section 2.6: operands on either side of the quadrant boundaries. -/
theorem witness_quadrants :
    phaseOf 0x0001921F < 2 ^ 30 ∧ 2 ^ 30 ≤ phaseOf 0x00019220 ∧ phaseOf 0x0003243F < 2 ^ 31 ∧
    2 ^ 31 ≤ phaseOf 0x00032440 ∧ phaseOf 0x0004B65F < 3 * 2 ^ 30 ∧ 3 * 2 ^ 30 ≤ phaseOf 0x0004B660 := by decide
theorem witness_Atan2AnswersAngle :
    (0x80000000#32).toInt < 0 ∧ ¬ (0x80000000#32).toInt = 0 ∧ (0x00000001#32).toInt > 0 ∧
    (0x80000000#32).toInt.natAbs = 2 ^ 31 := by decide
theorem witness_CosineIsSineAQuarterTurnOn :
    ∃ a1 a2 : Word32, phaseOf a2.toInt = (phaseOf a1.toInt + 2 ^ 30) % 2 ^ 32 :=
  ⟨2#32, BitVec.ofInt 32 (-378729900), by decide⟩
theorem witness_Atan2ScalesAndIsOdd :
    (0x30000000#32).toInt = (0x00000003#32).toInt * 2 ^ 28 ∧ (0x70000000#32).toInt = (0x00000007#32).toInt * 2 ^ 28 ∧
    (0x80000000#32).toInt = (0xFFFFFFFF#32).toInt * 2 ^ 31 ∧
    (0x7FFFFFFF#32).toInt ≠ 0 ∧ (0x80000001#32).toInt = -(0x7FFFFFFF#32).toInt := by decide
theorem witness_IntegerRoundTrip :
    (-32768 ≤ (0xFFFF8000#32).toInt ∧ (0x00007FFF#32).toInt ≤ 32767) ∧ (0x00008000#32).toInt > 32767 ∧
    (0xFFFF7FFF#32).toInt < -32768 := by decide
theorem witness_WellFormedScriptRunsToItsEnd :
    scriptWellFormed [] scriptP1 = true ∧
    scriptWellFormed [] [⟨none, "FROMINT", [.intLiteral 2147483648]⟩] = false := by decide +kernel

end Sys2Proof.Tests
end

section
/-!
PROOFS. The statements of 00_scope.md. The step of the machine where the FPE itself moves, as one equation for each way
it comes to move (listed, or left to itself); the statements are read off these.
-/

namespace Sys2Proof.Proofs.Scope

open Sys2Proof Sys2Proof.Machine

/-- Left to itself with no response offered, the machine answers the oldest command (log entry 1). -/
theorem step_eq_answerOldest {s : State} (ha : s.acceptable = none) (hi : s.inputs = []) (ho : s.offered = none) :
    step s = answerOldest s := by
  simp only [step, advance, ha, hi, runOn, ho]

/-- The FPE's own listed move is taken off the list, then the oldest command is answered (log entry 1). -/
theorem step_fpe {s : State} {later : List Input} (ha : s.acceptable = none) (hi : s.inputs = .fpe :: later) :
    step s = answerOldest { s with inputs := later } := by
  simp only [step, advance, ha, hi, applyInput]

/-- Answering a command that decodes is running its meaning (30_encoding.md R43). -/
theorem answerOldest_of_decode {s : State} {c : CommandWord} {i : Instr} (ho : s.oldest = some c)
    (hd : decode c = .ok i) : answerOldest s = exec i s := by
  simp only [answerOldest, ho, hd]

/-- Left to itself with a command to answer, the machine offers that command's own response (00_scope.md R7, R8). -/
theorem step_offers_respondWord {s : State} {c : CommandWord} (hc : s.oldest = some c) (ha : s.acceptable = none)
    (hi : s.inputs = []) : step s = .next (s.offer (respondWord c)) := by
  obtain ⟨-, ho, -⟩ := oldest_some.mp hc
  rw [step_eq_answerOldest ha hi ho, answerOldest_eq, hc]

/-- Settles O21: both states offer `respondWord` of the command, which no other part of the state enters. -/
theorem responseDependsOnTheCommandOnly : Obligations.ResponseDependsOnTheCommandOnly :=
  fun _ _ c hc hc' ha ha' hi hi' =>
    ⟨respondWord c, _, _, step_offers_respondWord hc ha hi, step_offers_respondWord hc' ha' hi', rfl, rfl⟩

/-- Settles O9: in either case the step is the FPE's answer to the oldest command, and taking its own move off the list
does not change which command is the oldest. -/
theorem stepRunsDecodedCommand : Obligations.StepRunsDecodedCommand := by
  intro s c rest i hr ha ho hq hd
  have hc : s.oldest = some c := oldest_some.mpr ⟨hr, ho, by rw [hq, List.head?_cons]⟩
  constructor
  · intro hi
    rw [step_eq_answerOldest ha hi ho, answerOldest_of_decode hc hd]
  · intro later hi
    have hc' : State.oldest { s with inputs := later } = some c := hc
    rw [step_fpe ha hi, answerOldest_of_decode hc' hd]

/-- Settles O13: a command's meaning offers `respondInstr` of it, which is `respondWord` of the word it came from. -/
theorem machineAnswersWithThePureFunction : Obligations.MachineAnswersWithThePureFunction := by
  intro c i s hd
  rw [respondWord_of_decode hd]
  exact exec_eq_offer i s

end Sys2Proof.Proofs.Scope
end

section
/-!
PROOFS. The statements of 10_state.md. The interface invariant holds at reset and each operation of the interface keeps
it, so every step does; what answering a command leaves unchanged; and what the result field holds beside a flag.
-/

namespace Sys2Proof.Proofs.InterfaceState

open Sys2Proof Sys2Proof.Machine Sys2Proof.Safety

/-! ## The invariant, operation by operation -/

/-- The invariant speaks of the reset input, the queue and the offered response only. -/
theorem inv_of_same_interface {s t : State} (h : Inv s) (hr : t.rst = s.rst) (hq : t.queue = s.queue)
    (ho : t.offered = s.offered) : Inv t where
  bounded := by rw [hq]; exact h.bounded
  offeredAnswersOldest := by rw [hq, ho]; exact h.offeredAnswersOldest
  idleUnderReset := by rw [hr, hq, ho]; exact h.idleUnderReset

theorem inv_inputs {s : State} (h : Inv s) (later : List Input) : Inv { s with inputs := later } :=
  inv_of_same_interface h rfl rfl rfl

theorem inv_submit {s : State} (h : Inv s) (c : CommandWord) : Inv (s.submit c) := inv_of_same_interface h rfl rfl rfl

theorem inv_withdraw {s : State} (h : Inv s) : Inv s.withdraw := inv_of_same_interface h rfl rfl rfl

/-- Acceptance needs room, and a newest entry does not change which command is the oldest (30_encoding.md R49). -/
theorem inv_accept {s : State} {c : CommandWord} (h : Inv s) (ha : s.acceptable = some c) : Inv (s.accept c) := by
  obtain ⟨hr, -, hroom⟩ := acceptable_some.mp ha
  refine ⟨?_, fun r ho => ?_, fun hrst => ?_⟩
  · rw [State.accept_queue, List.length_append, List.length_singleton]
    exact hroom
  · obtain ⟨d, hd, hrd⟩ := Option.map_eq_some_iff.mp (h.offeredAnswersOldest r ho)
    rw [State.accept_queue, List.head?_append, hd, Option.some_or, Option.map_some, hrd]
  · rw [State.accept_rst, hr] at hrst
    cases hrst

/-- The response the FPE comes to offer is the oldest command's own, and it offers one only outside reset. -/
theorem inv_offer {s : State} {c : CommandWord} (h : Inv s) (hc : s.oldest = some c) : Inv (s.offer (respondWord c)) := by
  obtain ⟨hr, -, hq⟩ := oldest_some.mp hc
  refine ⟨h.bounded, fun r ho => ?_, fun hrst => ?_⟩
  · rw [State.offer_queue, hq, Option.map_some, ← State.offer_offered s (respondWord c), ho]
  · rw [State.offer_rst, hr] at hrst
    cases hrst

theorem inv_answerOldest {s t : State} (h : Inv s) (hs : answerOldest s = .next t) : Inv t := by
  rw [answerOldest_eq] at hs
  cases hc : s.oldest with
  | none => rw [hc] at hs; cases hs; exact h
  | some c => rw [hc] at hs; cases hs; exact inv_offer h hc

/-- A delivery takes the offered response away with its command; nothing is delivered under reset
(70_reset_and_hazards.md R140). -/
theorem inv_take {s : State} (h : Inv s) : Inv s.take := by
  cases hr : s.rst with
  | true => rw [take_reset hr]; exact h
  | false =>
    cases ho : s.offered with
    | none => rw [take_none ho]; exact h
    | some r =>
      rw [take_some hr ho]
      refine ⟨?_, fun _ hoff => (by cases hoff), fun hrst => ?_⟩
      · have := h.bounded
        rw [List.length_tail]
        omega
      · rw [hr] at hrst
        cases hrst

theorem inv_assertReset (s : State) : Inv s.assertReset :=
  ⟨Nat.zero_le _, fun _ ho => (by cases ho), fun _ => ⟨rfl, rfl⟩⟩

theorem inv_releaseReset {s : State} (h : Inv s) : Inv s.releaseReset :=
  ⟨h.bounded, h.offeredAnswersOldest, fun hrst => (by cases hrst)⟩

/-- Settles O15: at reset the queue is empty, nothing is offered and reset is released. -/
theorem interfaceInvariantAtReset : Obligations.InterfaceInvariantAtReset :=
  ⟨Nat.zero_le _, fun _ ho => (by cases ho), fun hrst => (by cases hrst)⟩

/-- A step has one outcome, so the invariant of the state a case of `step_cases` names is that of the next state. -/
theorem inv_of_step {s t u : State} (hs : step s = .next t) (e : step s = .next u) (hu : Inv u) : Inv t := by
  cases e.symm.trans hs
  exact hu

/-- Settles O16: whichever operation the step is, after its move is taken off the list, that operation keeps the
invariant. -/
theorem stepKeepsInterfaceInvariant : Obligations.StepKeepsInterfaceInvariant := by
  intro s t h hs
  rcases step_cases s with ⟨c, ha, e⟩ | ⟨c, later, -, -, e⟩ | ⟨later, -, -, e⟩ | ⟨later, -, -, e⟩ | ⟨later, -, -, e⟩ |
    ⟨later, -, -, e⟩ | ⟨later, -, -, e⟩ | ⟨-, -, -, e⟩ | ⟨-, -, -, e⟩
  · exact inv_of_step hs e (inv_accept h ha)
  · exact inv_of_step hs e (inv_submit (inv_inputs h later) c)
  · exact inv_of_step hs e (inv_withdraw (inv_inputs h later))
  · exact inv_answerOldest (inv_inputs h later) (e.symm.trans hs)
  · exact inv_of_step hs e (inv_take (inv_inputs h later))
  · exact inv_of_step hs e (inv_assertReset _)
  · exact inv_of_step hs e (inv_releaseReset (inv_inputs h later))
  · exact inv_of_step hs e (inv_take h)
  · exact inv_answerOldest h (e.symm.trans hs)

/-! ## The frame of the commands -/

/-- Settles O12: the meaning of a command is `State.offer` of its response, which changes the offered response alone. -/
theorem commandsChangeOnlyTheOfferedResponse : Obligations.CommandsChangeOnlyTheOfferedResponse := by
  intro i s t h
  rw [exec_eq_offer] at h
  cases h
  exact ⟨rfl, rfl, rfl, rfl, rfl, rfl⟩

/-! ## The result field beside a flag -/

/-- Each flag of a response fixes its result field (60_exceptions.md R121 to R123). -/
def FlagFixesResult (r : ResponseWord) : Prop :=
  (satBit r = true → resultField r = 0x7FFFFFFF#32 ∨ resultField r = 0x80000000#32) ∧
  (dbzBit r = true → resultField r = 0x00000000#32) ∧
  (illBit r = true → resultField r = 0x00000000#32)

/-- The fields of `respond v f` are the value and the flags it was made of (30_encoding.md R41). -/
theorem flagFixesResult_respond {v : Int} {f : Flags} :
    FlagFixesResult (respond v f) ↔
      (f.sat = true → bits32 v = 0x7FFFFFFF#32 ∨ bits32 v = 0x80000000#32) ∧
      (f.dbz = true → bits32 v = 0x00000000#32) ∧ (f.ill = true → bits32 v = 0x00000000#32) := by
  simp only [FlagFixesResult, satBit_respond, dbzBit_respond, illBit_respond, resultField_respond]

theorem flagFixesResult_noFlags (v : Int) : FlagFixesResult (respond v noFlags) :=
  flagFixesResult_respond.mpr ⟨nofun, nofun, nofun⟩

theorem flagFixesResult_dbz : FlagFixesResult (respond 0 dbzFlags) :=
  flagFixesResult_respond.mpr ⟨nofun, fun _ => rfl, nofun⟩

theorem flagFixesResult_ill : FlagFixesResult illegalResponse :=
  flagFixesResult_respond.mpr ⟨nofun, nofun, fun _ => rfl⟩

theorem flagFixesResult_sat {v : Int} (h : v = maxRaw ∨ v = minRaw) : FlagFixesResult (respond v (satFlags true)) := by
  refine flagFixesResult_respond.mpr ⟨fun _ => ?_, nofun, nofun⟩
  obtain rfl | rfl := h
  · exact .inl rfl
  · exact .inr rfl

/-- The overflow policy: `SAT` stands beside a clamped value only (10_state.md R25). -/
theorem flagFixesResult_respondSaturated (v : Int) : FlagFixesResult (respondSaturated v) := by
  rw [respondSaturated]
  rcases sat32_cases v with ⟨-, e⟩ | ⟨-, e⟩ | ⟨-, -, e⟩ <;> rw [e]
  · exact flagFixesResult_sat (.inl rfl)
  · exact flagFixesResult_sat (.inr rfl)
  · exact flagFixesResult_noFlags v

theorem flagFixesResult_respondInstr (i : Instr) : FlagFixesResult (respondInstr i) := by
  rcases respondInstr_cases i with ⟨v, -, e⟩ | ⟨v, -, -, e⟩ | ⟨a, -, e⟩ | ⟨a, v, -, hv, e⟩ <;> rw [e]
  · exact flagFixesResult_respondSaturated v
  · exact flagFixesResult_noFlags v
  · exact flagFixesResult_dbz
  · exact flagFixesResult_sat hv

/-- A word that decodes has its command's response; any other is answered with 0 and `ILL` (30_encoding.md R43, R45). -/
theorem flagFixesResult_respondWord (c : CommandWord) : FlagFixesResult (respondWord c) := by
  cases h : decode c with
  | ok i => rw [respondWord_of_decode h]; exact flagFixesResult_respondInstr i
  | error e => rw [respondWord_of_error h]; exact flagFixesResult_ill

/-- Settles O28: the statement is `FlagFixesResult` of every response word the machine gives. -/
theorem flagFixesTheResultField : Obligations.FlagFixesTheResultField := flagFixesResult_respondWord

end Sys2Proof.Proofs.InterfaceState
end

section
/-!
PROOFS. The statement of 20_memory.md. The four ways the queue and the record of deliveries may change, each operation of
the interface shown to be one of them, and the step read off as a list of operations.
-/

namespace Sys2Proof.Proofs.Memory

open Sys2Proof Sys2Proof.Machine Sys2Proof.Safety Sys2Proof.Proofs.InterfaceState

/-- From `s` to `t` the queue and the record of deliveries change by the contract: not at all, by acceptance, by
delivery of one response, or by reset (20_memory.md R35, 30_encoding.md R49, 70_reset_and_hazards.md R140). -/
def ContractChange (s t : State) : Prop :=
  (t.queue = s.queue ∧ t.delivered = s.delivered) ∨
  (∃ c, s.waiting = some c ∧ s.rst = false ∧ s.queue.length < Config.maxOutstanding ∧
    t.queue = s.queue ++ [c] ∧ t.waiting = none ∧ t.delivered = s.delivered) ∨
  (∃ c rest, s.queue = c :: rest ∧ t.queue = rest ∧ t.delivered = s.delivered ++ [respondWord c]) ∨
  (t.rst = true ∧ t.queue = [] ∧ t.delivered = s.delivered)

/-- The moves still to come have no part in the contract. -/
theorem contractChange_of_inputs {s t : State} {later : List Input} (h : ContractChange { s with inputs := later } t) :
    ContractChange s t := h

theorem contractChange_of_unchanged {s t : State} (hq : t.queue = s.queue) (hd : t.delivered = s.delivered) :
    ContractChange s t := .inl ⟨hq, hd⟩

theorem contractChange_accept {s : State} {c : CommandWord} (ha : s.acceptable = some c) :
    ContractChange s (s.accept c) := by
  obtain ⟨hr, hw, hroom⟩ := acceptable_some.mp ha
  exact .inr (.inl ⟨c, hw, hr, hroom, rfl, rfl, rfl⟩)

/-- An offered response is `respondWord` of the command at the head of the queue (30_encoding.md R49 items 3 to 5). -/
theorem queue_of_offered {s : State} {r : ResponseWord} (h : Inv s) (ho : s.offered = some r) :
    ∃ c rest, s.queue = c :: rest ∧ respondWord c = r := by
  obtain ⟨c, hc, hcr⟩ := Option.map_eq_some_iff.mp (h.offeredAnswersOldest r ho)
  obtain ⟨rest, hq⟩ := List.head?_eq_some_iff.mp hc
  exact ⟨c, rest, hq, hcr⟩

/-- The response delivered is the one offered, which by the invariant is the oldest command's own. -/
theorem contractChange_take {s : State} (h : Inv s) : ContractChange s s.take := by
  cases hr : s.rst with
  | true => rw [take_reset hr]; exact contractChange_of_unchanged rfl rfl
  | false =>
    cases ho : s.offered with
    | none => rw [take_none ho]; exact contractChange_of_unchanged rfl rfl
    | some r =>
      obtain ⟨c, rest, hq, rfl⟩ := queue_of_offered h ho
      rw [take_some hr ho]
      exact .inr (.inr (.inl ⟨c, rest, hq, congrArg List.tail hq, rfl⟩))

theorem contractChange_assertReset (s : State) : ContractChange s s.assertReset :=
  .inr (.inr (.inr ⟨rfl, rfl, rfl⟩))

/-- An answered command stays in the queue, and its response is not yet delivered (10_state.md R26). -/
theorem contractChange_answerOldest {s t : State} (hs : answerOldest s = .next t) : ContractChange s t := by
  rw [answerOldest_eq] at hs
  cases hc : s.oldest with
  | none => rw [hc] at hs; cases hs; exact contractChange_of_unchanged rfl rfl
  | some c => rw [hc] at hs; cases hs; exact contractChange_of_unchanged rfl rfl

/-- A step has one outcome, so a change to the state a case of `step_cases` names is the change to the next state. -/
theorem contractChange_of_step {s t u : State} (hs : step s = .next t) (e : step s = .next u)
    (hu : ContractChange s u) : ContractChange s t := by
  cases e.symm.trans hs
  exact hu

/-- Settles O18: whichever operation the step is, after its move is taken off the list, that operation changes the queue
and the record of deliveries by the contract. -/
theorem queueChangesOnlyByTheContract : Obligations.QueueChangesOnlyByTheContract := by
  intro s t h hs
  change ContractChange s t
  rcases step_cases s with ⟨c, ha, e⟩ | ⟨c, later, -, -, e⟩ | ⟨later, -, -, e⟩ | ⟨later, -, -, e⟩ | ⟨later, -, -, e⟩ |
    ⟨later, -, -, e⟩ | ⟨later, -, -, e⟩ | ⟨-, -, -, e⟩ | ⟨-, -, -, e⟩
  · exact contractChange_of_step hs e (contractChange_accept ha)
  · exact contractChange_of_step hs e (contractChange_of_unchanged rfl rfl)
  · exact contractChange_of_step hs e (contractChange_of_unchanged rfl rfl)
  · exact contractChange_of_inputs (contractChange_answerOldest (e.symm.trans hs))
  · exact contractChange_of_step hs e (contractChange_of_inputs (contractChange_take (inv_inputs h later)))
  · exact contractChange_of_step hs e (contractChange_of_inputs (contractChange_assertReset _))
  · exact contractChange_of_step hs e (contractChange_of_unchanged rfl rfl)
  · exact contractChange_of_step hs e (contractChange_take h)
  · exact contractChange_answerOldest (e.symm.trans hs)

end Sys2Proof.Proofs.Memory
end

section
/-!
PROOFS. The statements of 30_encoding.md. The words first: how a row of the opcode map reads the two operand fields, and
which opcodes have no row. Then the interface: the step as one equation for each way it comes about, and the run that
empties the queue. The script last, by induction on its lines.
-/

namespace Sys2Proof.Proofs.Encoding

open Sys2Proof Sys2Proof.Machine Sys2Proof.Safety Sys2Proof.Proofs.Scope Sys2Proof.Proofs.Memory

/-! ## Command words -/

/-- 30_encoding.md R44: the row of a command's opcode makes the command of its operand fields. -/
theorem build_findRow_opcodeOf (i : Instr) :
    (findRow (opcodeOf i)).map (fun row => row.build (operandsOf i).1 (operandsOf i).2) = some i := by
  cases i <;> rfl

/-- Settles O1: the encoder writes the opcode and the operand fields from which that opcode's row makes the command. -/
theorem decodeEncodeAgree : Obligations.DecodeEncodeAgree :=
  fun i _ => decode_commandWord (build_findRow_opcodeOf i)

/-- Settles O3: the number of a command word and its three fields, as Laws/Decode.lean has them. -/
theorem commandWordIsItsFields : Obligations.CommandWordIsItsFields :=
  fun op a b =>
    ⟨commandWord_toNat op a b, opField_commandWord op a b, aField_commandWord op a b, bField_commandWord op a b⟩

/-- Settles O5: each opcode has its row, which makes the command of the two fields or of the first alone. -/
theorem opcodeMapDecodes : Obligations.OpcodeMapDecodes := by
  intro a b
  refine ⟨⟨?_, ?_, ?_, ?_⟩, ⟨?_, ?_, ?_, ?_, ?_, ?_⟩, ⟨?_, ?_, ?_, ?_, ?_⟩, ⟨?_, ?_, ?_, ?_, ?_, ?_⟩, ⟨?_, ?_⟩⟩
  all_goals exact decode_commandWord rfl

/-- How a row of the opcode map reads the operand fields `a` and `b`: the command it makes has the row's opcode, and
either both fields as operands, or the first and 0, whatever the second field holds (30_encoding.md R42). -/
def ReadsFields (row : OpcodeRow) (a b : Word32) : Prop :=
  opcodeOf (row.build a b) = row.op ∧
  match row.arity with
  | .two => operandsOf (row.build a b) = (a, b)
  | .one => operandsOf (row.build a b) = (a, 0) ∧ ∀ b', row.build a b' = row.build a b

/-- Row by row of the map: a `.two` row hands both fields to its command, a `.one` row drops the second. -/
theorem readsFields_of_mem {row : OpcodeRow} (h : row ∈ opcodeTable) (a b : Word32) : ReadsFields row a b := by
  revert row
  simp [opcodeTable, ReadsFields, opcodeOf, operandsOf]

theorem build_of_arity_one {row : OpcodeRow} (h : row ∈ opcodeTable) (ha : row.arity = .one) (a b b' : Word32) :
    row.build a b' = row.build a b := by
  have hr := readsFields_of_mem h a b
  rw [ReadsFields, ha] at hr
  exact hr.2.2 b'

/-- Settles O7: the command is its row's, on the word's fields; a one-operand row makes it of any second field. -/
theorem decodedCommandHasTheWordsFields : Obligations.DecodedCommandHasTheWordsFields := by
  intro c i hd
  obtain ⟨row, hf, rfl⟩ := decode_ok hd
  obtain ⟨hmem, hop⟩ := findRow_some hf
  obtain ⟨hcode, hargs⟩ := readsFields_of_mem hmem (aField c) (bField c)
  refine ⟨hcode.trans hop, ?_⟩
  cases ha : row.arity with
  | two =>
    rw [ha] at hargs
    exact ⟨congrArg Prod.fst hargs, .inl (congrArg Prod.snd hargs)⟩
  | one =>
    rw [ha] at hargs
    obtain ⟨hargs, hany⟩ := hargs
    refine ⟨congrArg Prod.fst hargs, .inr ⟨congrArg Prod.snd hargs, fun b => ?_⟩⟩
    rw [decode_of_row hf, hany b]

/-- Settles O8: a one-operand row makes one command of every second field, and a command has one response. -/
theorem oneOperandCommandsIgnoreSecondField : Obligations.OneOperandCommandsIgnoreSecondField := by
  intro row hmem ha a b b'
  have hf := findRow_of_mem hmem
  rw [respondWord_of_decode (decode_of_row hf a b), respondWord_of_decode (decode_of_row hf a b'),
    build_of_arity_one hmem ha a b b']

/-- Settles O2, by evaluating the decoder on the eight words. -/
theorem sampleWordsDecode : Obligations.SampleWordsDecode := by
  refine ⟨?_, ?_, ?_, ?_, ?_, ?_, ?_, ?_⟩ <;> decide

/-! ## Unassigned opcodes -/

/-- An opcode has no row exactly when it is none of the map's (30_encoding.md R44). -/
theorem findRow_eq_none_iff_notMem {op : Opcode} : findRow op = none ↔ op ∉ opcodeTable.map OpcodeRow.op := by
  simp [findRow, List.find?_eq_none]

/-- 30_encoding.md R45: the opcodes without a row are those of the five ranges. -/
theorem findRow_eq_none_iff {op : Opcode} :
    findRow op = none ↔
      ((0x04 ≤ op.toNat ∧ op.toNat ≤ 0x0F) ∨ (0x16 ≤ op.toNat ∧ op.toNat ≤ 0x1F) ∨
       (0x25 ≤ op.toNat ∧ op.toNat ≤ 0x2F) ∨ (0x36 ≤ op.toNat ∧ op.toNat ≤ 0x3F) ∨ 0x42 ≤ op.toNat) := by
  rw [findRow_eq_none_iff_notMem]
  simp only [opcodeTable, List.map_cons, List.map_nil, List.mem_cons, List.not_mem_nil, or_false, BitVec.toNat_eq,
    BitVec.ofNat_eq_ofNat, BitVec.toNat_ofNat]
  omega

/-- A word is rejected by its opcode's name exactly when the opcode has no row (30_encoding.md R43, R45). -/
theorem decode_eq_unassigned_iff {c : CommandWord} :
    decode c = .error (.unassigned (opField c)) ↔ findRow (opField c) = none := by
  refine ⟨fun h => ?_, decode_of_no_row⟩
  cases hf : findRow (opField c) with
  | none => rfl
  | some row => rw [decode_of_findRow hf] at h; cases h

/-- 60_exceptions.md R123: the response `ILL` as a word. -/
theorem illegalResponse_eq : illegalResponse = 0x0400000000#40 := by decide

/-- Settles O6: the rejected opcodes are those without a row; the count evaluates the map on all 256 opcodes; a word
without a row is answered with `illegalResponse`. -/
theorem unassignedOpcodesAnswerIll : Obligations.UnassignedOpcodesAnswerIll := by
  refine ⟨fun c => decode_eq_unassigned_iff.trans findRow_eq_none_iff, by decide +kernel, fun c h => ?_⟩
  have hf : findRow (opField c) = none := by simpa [commandAssigned] using h
  rw [respondWord_of_error (decode_of_no_row hf), illegalResponse_eq]

/-! ## Response words -/

/-- Settles O4: the number of `respond v f`, with the pattern of `v` as its result field, and what its fields read. -/
theorem responseWordIsItsFields : Obligations.ResponseWordIsItsFields := by
  intro v f hlo hhi
  refine ⟨?_, reads_respond f hlo hhi⟩
  rw [resultField_respond]
  exact respond_toNat v f

/-- At most one of the three flags makes a formed response (60_exceptions.md R126). -/
theorem responseFormed_respond (v : Int) {f : Flags}
    (h : f = noFlags ∨ (∃ s, f = satFlags s) ∨ f = dbzFlags ∨ f = illFlags) : ResponseFormed (respond v f) := by
  refine ⟨reservedField_respond v f, ?_⟩
  rw [flagByte_respond]
  rcases h with rfl | ⟨s, rfl⟩ | rfl | rfl
  · exact .inl rfl
  · cases s
    · exact .inl rfl
    · exact .inr (.inl rfl)
  · exact .inr (.inr (.inl rfl))
  · exact .inr (.inr (.inr rfl))

theorem responseFormed_respondInstr (i : Instr) : ResponseFormed (respondInstr i) := by
  rcases respondInstr_cases i with ⟨v, -, e⟩ | ⟨v, -, -, e⟩ | ⟨a, -, e⟩ | ⟨a, v, -, -, e⟩ <;> rw [e]
  · exact responseFormed_respond _ (.inr (.inl ⟨_, rfl⟩))
  · exact responseFormed_respond v (.inl rfl)
  · exact responseFormed_respond 0 (.inr (.inr (.inl rfl)))
  · exact responseFormed_respond v (.inr (.inl ⟨true, rfl⟩))

theorem responseFormed_respondWord (c : CommandWord) : ResponseFormed (respondWord c) := by
  cases h : decode c with
  | ok i => rw [respondWord_of_decode h]; exact responseFormed_respondInstr i
  | error e => rw [respondWord_of_error h]; exact responseFormed_respond 0 (.inr (.inr (.inr rfl)))

/-- Settles O17: by the contract of the queue a step delivers nothing or the response `exec` gives a command. -/
theorem deliveredResponsesStayFormed : Obligations.DeliveredResponsesStayFormed := by
  intro s t hinv hs hstep r hr
  rcases queueChangesOnlyByTheContract s t hinv hstep with
    ⟨-, hd⟩ | ⟨c, -, -, -, -, -, hd⟩ | ⟨c, rest, -, -, hd⟩ | ⟨-, -, hd⟩ <;> rw [hd] at hr
  · exact hs r hr
  · exact hs r hr
  · rcases List.mem_append.mp hr with hr | hr
    · exact hs r hr
    · rw [List.mem_singleton.mp hr]
      exact responseFormed_respondWord c
  · exact hs r hr

/-! ## The step, by how it comes about -/

/-- Acceptance comes before any other move (30_encoding.md R49 item 1, log entry 5). -/
theorem step_accept {s : State} {c : CommandWord} (ha : s.acceptable = some c) : step s = .next (s.accept c) := by
  simp only [step, advance, ha]

/-- With no command to accept, the next listed move is taken off the list and happens (log entry 1). -/
theorem step_listed {s : State} {i : Input} {later : List Input} (ha : s.acceptable = none)
    (hi : s.inputs = i :: later) : step s = applyInput i { s with inputs := later } := by
  simp only [step, advance, ha, hi]

/-- Left to itself with a response offered, the machine delivers it (log entry 1). -/
theorem step_eq_take {s : State} {r : ResponseWord} (ha : s.acceptable = none) (hi : s.inputs = [])
    (ho : s.offered = some r) : step s = .next s.take := by
  simp only [step, advance, ha, hi, runOn, ho]

/-- Settles O11: every case of the step is an operation on the state, or the FPE's answer, which goes on too. -/
theorem everyStepGoesOn : Obligations.EveryStepGoesOn := by
  intro s
  rcases step_cases s with ⟨_, -, e⟩ | ⟨_, _, -, -, e⟩ | ⟨_, -, -, e⟩ | ⟨_, -, -, e⟩ | ⟨_, -, -, e⟩ | ⟨_, -, -, e⟩ |
    ⟨_, -, -, e⟩ | ⟨-, -, -, e⟩ | ⟨-, -, -, e⟩
  · exact ⟨_, e⟩
  · exact ⟨_, e⟩
  · exact ⟨_, e⟩
  · exact ⟨_, e.trans (answerOldest_eq _)⟩
  · exact ⟨_, e⟩
  · exact ⟨_, e⟩
  · exact ⟨_, e⟩
  · exact ⟨_, e⟩
  · exact ⟨_, e.trans (answerOldest_eq _)⟩

/-- Settles O25: the host's move is `State.submit` or `State.withdraw`, which changes the waiting command alone. -/
theorem unacceptedCommandIsTheHosts : Obligations.UnacceptedCommandIsTheHosts :=
  fun _ _ _ ha => ⟨fun hi => step_listed ha hi, fun hi => step_listed ha hi⟩

/-- Answering an oldest command whose opcode is unassigned offers `0x04_00000000` (30_encoding.md R45). -/
theorem answerOldest_of_error {s : State} {c : CommandWord} {e : DecodeError} (ho : s.oldest = some c)
    (hd : decode c = .error e) : answerOldest s = .next (s.offer 0x0400000000#40) := by
  rw [answerOldest_eq, ho]
  simp only [respondWord_of_error hd, illegalResponse_eq]

/-- Settles O10: in either case the step is the FPE's answer to the oldest command, which is unassigned. -/
theorem stepAnswersUnassignedOpcode : Obligations.StepAnswersUnassignedOpcode := by
  intro s c rest op hr ha ho hq hd
  have hc : s.oldest = some c := oldest_some.mpr ⟨hr, ho, by rw [hq, List.head?_cons]⟩
  constructor
  · intro hi
    rw [step_eq_answerOldest ha hi ho, answerOldest_of_error hc hd]
    rfl
  · intro later hi
    have hc' : State.oldest { s with inputs := later } = some c := hc
    rw [step_fpe ha hi, answerOldest_of_error hc' hd]
    rfl

/-! ## A full queue -/

/-- From `s` to `t` the queue changes as it may while it is full: not at all, by delivery of the offered response, or by
reset (30_encoding.md R49 items 1 and 3, 70_reset_and_hazards.md R140). -/
def FullQueueChange (s t : State) : Prop :=
  t.queue = s.queue ∨
  (∃ r, s.offered = some r ∧ t.queue = s.queue.tail ∧ t.delivered = s.delivered ++ [r]) ∨
  (t.rst = true ∧ t.queue = [])

theorem fullQueueChange_take (s : State) : FullQueueChange s s.take := by
  cases hr : s.rst with
  | true => rw [take_reset hr]; exact .inl rfl
  | false =>
    cases ho : s.offered with
    | none => rw [take_none ho]; exact .inl rfl
    | some r => rw [take_some hr ho]; exact .inr (.inl ⟨r, ho, rfl, rfl⟩)

/-- An answered command stays in the queue until its response is delivered (10_state.md R26). -/
theorem queue_answerOldest {s t : State} (hs : answerOldest s = .next t) : t.queue = s.queue := by
  rw [answerOldest_eq] at hs
  cases hc : s.oldest with
  | none => rw [hc] at hs; cases hs; rfl
  | some c => rw [hc] at hs; cases hs; rfl

/-- Whatever move is next, a step that accepts no command changes the queue as a full one may change. -/
theorem fullQueueChange_of_step {s t : State} (ha : s.acceptable = none) (hs : step s = .next t) :
    FullQueueChange s t := by
  rcases step_cases s with ⟨_, h, -⟩ | ⟨_, _, -, -, e⟩ | ⟨_, -, -, e⟩ | ⟨later, -, -, e⟩ | ⟨later, -, -, e⟩ |
    ⟨_, -, -, e⟩ | ⟨_, -, -, e⟩ | ⟨-, -, -, e⟩ | ⟨-, -, -, e⟩
  · rw [ha] at h; cases h
  all_goals have e := e.symm.trans hs
  · cases e; exact .inl rfl
  · cases e; exact .inl rfl
  · exact .inl (queue_answerOldest (s := { s with inputs := later }) e)
  · cases e; exact fullQueueChange_take { s with inputs := later }
  · cases e; exact .inr (.inr ⟨rfl, rfl⟩)
  · cases e; exact .inl rfl
  · cases e; exact fullQueueChange_take s
  · exact .inl (queue_answerOldest e)

/-- Settles O24: where the queue has room the command is acceptable, so the step accepts it; where it is full no command
is acceptable. -/
theorem acceptedAtOnceUnlessFull : Obligations.AcceptedAtOnceUnlessFull := by
  intro s c hr hw
  refine ⟨fun hroom => step_accept (acceptable_some.mpr ⟨hr, hw, hroom⟩), fun hfull t hs => ?_⟩
  have ha : s.acceptable = none := by
    refine Option.eq_none_iff_forall_ne_some.mpr fun d hd => ?_
    obtain ⟨-, -, hroom⟩ := acceptable_some.mp hd
    omega
  exact fullQueueChange_of_step ha hs

/-! ## The run that empties the queue -/

/-- The state with every accepted command answered and delivered, in the order of acceptance (30_encoding.md R49 items 3
to 5). -/
def drained (s : State) : State :=
  { s with queue := [], offered := none, delivered := s.delivered ++ s.queue.map respondWord }

theorem drained_of_empty {s : State} (hq : s.queue = []) (ho : s.offered = none) : drained s = s := by
  cases s
  cases hq
  cases ho
  simp [drained]

/-- A delivered response is the first of those the queue still owes. -/
theorem drained_take {s : State} {c : CommandWord} {rest : List CommandWord} (hr : s.rst = false)
    (ho : s.offered = some (respondWord c)) (hq : s.queue = c :: rest) : drained s.take = drained s := by
  rw [take_some hr ho]
  simp [drained, hq]

/-- A machine that a step leaves as it is stays so for any number of steps. -/
theorem steps_of_step_self {s : State} (h : step s = .next s) (k : Nat) : steps k s = .next s := by
  induction k with
  | zero => rfl
  | succ k ih => rw [steps_succ h, ih]

/-- With a response offered, one step delivers it and leaves the rest of the queue to be answered. -/
theorem step_delivers {s : State} {c : CommandWord} {rest : List CommandWord} (hr : s.rst = false)
    (hw : s.waiting = none) (hi : s.inputs = []) (hq : s.queue = c :: rest) (ho : s.offered = some (respondWord c)) :
    ∃ t, step s = .next t ∧ t.rst = false ∧ t.waiting = none ∧ t.inputs = [] ∧ t.queue = rest ∧ t.offered = none ∧
      drained t = drained s := by
  refine ⟨s.take, step_eq_take (acceptable_of_waiting_none hw) hi ho, ?_⟩
  refine ⟨?_, ?_, ?_, ?_, ?_, drained_take hr ho hq⟩ <;> simp [take_some hr ho, hr, hw, hi, hq]

/-- With no response offered, two steps a command deliver the responses to the whole queue, and the machine then stays
as it is for any `k` steps more (70_reset_and_hazards.md R145). -/
theorem steps_drain {s : State} (hr : s.rst = false) (hw : s.waiting = none) (hi : s.inputs = [])
    (ho : s.offered = none) (k : Nat) : steps (2 * s.queue.length + k) s = .next (drained s) := by
  induction hq : s.queue generalizing s with
  | nil =>
    rw [steps_of_step_self (step_idle hw hq ho hi), drained_of_empty hq ho]
  | cons c rest ih =>
    have hc : s.oldest = some c := oldest_some.mpr ⟨hr, ho, by rw [hq, List.head?_cons]⟩
    have hanswer : step s = .next (s.offer (respondWord c)) :=
      step_offers_respondWord hc (acceptable_of_waiting_none hw) hi
    obtain ⟨t, hdeliver, hr', hw', hi', hq', ho', hdrained⟩ :=
      step_delivers (s := s.offer (respondWord c)) hr hw hi hq rfl
    calc steps (2 * (c :: rest).length + k) s
        = steps (2 * rest.length + k + 1 + 1) s := by rw [List.length_cons]; congr 1; omega
      _ = steps (2 * rest.length + k) t := by rw [steps_succ hanswer, steps_succ hdeliver]
      _ = .next (drained t) := ih hr' hw' hi' ho' hq'
      _ = .next (drained s) := congrArg _ hdrained

/-- Settles O19: where no response is offered this is `steps_drain`; where one is, it is the oldest command's own, one
step delivers it, and of the steps for that command one is left over. -/
theorem acceptedCommandsAreAnsweredInOrder : Obligations.AcceptedCommandsAreAnsweredInOrder := by
  intro s hinv hr hw hi
  cases ho : s.offered with
  | none => exact steps_drain hr hw hi ho 0
  | some r =>
    obtain ⟨c, rest, hq, rfl⟩ := queue_of_offered hinv ho
    obtain ⟨t, hdeliver, hr', hw', hi', hq', ho', hdrained⟩ := step_delivers hr hw hi hq ho
    calc steps (2 * s.queue.length) s
        = steps (2 * t.queue.length + 1 + 1) s := by rw [hq, hq', List.length_cons]; rfl
      _ = steps (2 * t.queue.length + 1) t := steps_succ hdeliver
      _ = .next (drained t) := steps_drain hr' hw' hi' ho' 1
      _ = .next (drained s) := congrArg _ hdrained

/-- A submitted command is accepted into an empty queue, then answered, then its response delivered (30_encoding.md R49
items 1 and 3). -/
theorem steps_waiting {s : State} {c : CommandWord} (hr : s.rst = false) (hw : s.waiting = some c) (hq : s.queue = [])
    (ho : s.offered = none) (hi : s.inputs = []) :
    steps 3 s = .next { s with waiting := none, delivered := s.delivered ++ [respondWord c] } := by
  have hroom : s.queue.length < Config.maxOutstanding := by rw [hq]; exact maxOutstanding_pos
  have hqueue : (s.accept c).queue = [c] := by rw [State.accept_queue, hq, List.nil_append]
  have hdrain : steps 2 (s.accept c) = .next (drained (s.accept c)) := by
    have h := steps_drain (s := s.accept c) hr rfl hi ho 0
    rw [hqueue] at h
    exact h
  rw [steps_succ (step_accept (acceptable_some.mpr ⟨hr, hw, hroom⟩)), hdrain, drained, hqueue]
  simp [State.accept, hq, ho]

/-- Settles O20: the first step submits the command, the other three are `steps_waiting`; a listed take is `State.take` of
the state without that move. -/
theorem submittedCommandIsAnswered : Obligations.SubmittedCommandIsAnswered := by
  refine ⟨fun s c hidle hi => ?_, fun s later ha hi => ⟨fun r hr ho => ?_, fun ho => ?_⟩⟩
  · obtain ⟨hr, hw, hq, ho⟩ := hidle
    have hsubmit : step s = .next (State.submit { s with inputs := [] } c) :=
      step_listed (acceptable_of_waiting_none hw) hi
    rw [steps_succ hsubmit, steps_waiting (s := State.submit { s with inputs := [] } c) hr rfl hq ho rfl]
    simp [State.submit, hw]
  · exact (step_listed ha hi).trans (congrArg _ (take_some (s := { s with inputs := later }) hr ho))
  · exact (step_listed ha hi).trans (congrArg _ (take_none (s := { s with inputs := later }) ho))

/-! ## The command script -/

/-- The run of a script is its first line's word answered, then the run of the rest (30_encoding.md R48). -/
theorem runScript_cons (env : List (String × Word32)) (l : ScriptLine) (rest : List ScriptLine) :
    runScript env (l :: rest) = (assembleLine env l).bind fun c =>
      (runScript (bindResult env l (respondWord c)) rest).map (respondWord c :: ·) := by
  rw [runScript]
  cases assembleLine env l with
  | none => rfl
  | some c =>
    simp only [Option.bind_some]
    cases runScript (bindResult env l (respondWord c)) rest <;> rfl

/-- After any labelled results, a script runs to its end exactly where it is well-formed (30_encoding.md R48). -/
theorem runScript_isSome (env : List (String × Word32)) (lines : List ScriptLine) :
    (runScript env lines).isSome = scriptWellFormed (env.map Prod.fst) lines := by
  induction lines generalizing env with
  | nil => rfl
  | cons l rest ih =>
    rw [runScript_cons, scriptWellFormed, ← assembleLine_isSome]
    cases assembleLine env l with
    | none => rfl
    | some c => rw [Option.bind_some, Option.isSome_map, ih, bindResult_labels, Option.isSome_some, Bool.true_and]

/-- A script that runs has one response a line (30_encoding.md R48, R49 item 3). -/
theorem length_of_runScript {env : List (String × Word32)} {lines : List ScriptLine} {rs : List ResponseWord}
    (h : runScript env lines = some rs) : rs.length = lines.length := by
  induction lines generalizing env rs with
  | nil => cases h; rfl
  | cons l rest ih =>
    rw [runScript_cons] at h
    obtain ⟨c, -, h⟩ := Option.bind_eq_some_iff.mp h
    obtain ⟨later, hlater, rfl⟩ := Option.map_eq_some_iff.mp h
    rw [List.length_cons, List.length_cons, ih hlater]

/-- Settles O60: from no labels, running to the end is being well-formed, and the run has one response a line. -/
theorem wellFormedScriptRunsToItsEnd : Obligations.WellFormedScriptRunsToItsEnd := by
  intro lines
  have hsome : (runScript [] lines).isSome = scriptWellFormed [] lines := runScript_isSome [] lines
  constructor
  · intro h
    obtain ⟨rs, hrs⟩ := Option.isSome_iff_exists.mp (hsome.trans h)
    exact ⟨rs, hrs, length_of_runScript hrs⟩
  · intro h
    exact Option.isNone_iff_eq_none.mp (by rw [← Option.not_isSome, hsome, h]; rfl)

end Sys2Proof.Proofs.Encoding
end

section
/-!
PROOFS. The statements of 40_conversion.md. `FROMINT` is the saturated response to the scaled integer and `TOINT` the
plain response to a truncated quotient; the round trip and `from_real` are read off what the result field holds.
-/

namespace Sys2Proof.Proofs.Conversion

open Sys2Proof Sys2Proof.Machine Sys2Proof.Safety

/-- Settles O56: the response is the saturated one to the scaled integer, which leaves the range exactly where the integer
leaves -32768 to 32767. -/
theorem fromintAnswersScaledInteger : Obligations.FromintAnswersScaledInteger := by
  intro a b s
  refine ⟨decode_commandWord rfl, fromintResponse a, rfl, readsSaturated_respondSaturated _, ?_⟩
  have hsat : satBit (fromintResponse a) = true ↔ a.toInt * 65536 > 2147483647 ∨ a.toInt * 65536 < -2147483648 :=
    satBit_respondSaturated _
  rw [hsat]
  omega

/-- 40_conversion.md R56: what the response to `TOINT` says. -/
theorem reads_tointResponse (a : Word32) : Reads (tointResponse a) (tdiv (signed32 a) scale) false false false := by
  obtain ⟨hlo, hhi⟩ := toint_range a
  exact reads_respond noFlags (by omega) (by omega)

/-- Settles O57: `tdiv` truncates, and the quotient lies in -32768 to 32767 by `toint_range`. -/
theorem tointAnswersTruncatedInteger : Obligations.TointAnswersTruncatedInteger := fun a _ _ =>
  ⟨decode_commandWord rfl, tointResponse a, tdiv (signed32 a) scale, rfl, reads_tointResponse a,
    tdiv_truncates _ (by decide), toint_range a⟩

/-! ## The round trip -/

/-- `TOINT` of the result of `FROMINT` divides the saturated scaled integer (40_conversion.md R55, R56). -/
theorem reads_toint_fromint (i : Word32) :
    Reads (tointResponse (resultField (fromintResponse i))) (tdiv (sat32 (signed32 i * scale)).1 scale)
      false false false := by
  have hfield : signed32 (resultField (fromintResponse i)) = (sat32 (signed32 i * scale)).1 :=
    result_respondSaturated _
  rw [← hfield]
  exact reads_tointResponse _

/-- 40_conversion.md R55: where the scaled integer lies in range, no flag is set. -/
theorem flagByte_fromintResponse {i : Word32} (h : sat32 (signed32 i * scale) = (signed32 i * scale, false)) :
    flagByte (fromintResponse i) = 0 := by
  rw [fromintResponse, respondSaturated, h, flagByte_respond]
  rfl

/-- Settles O58: the cases of the statement are those of `sat32` on the scaled integer, whose truncated quotient is the
integer itself, 32767 or -32768. -/
theorem integerRoundTrip : Obligations.IntegerRoundTrip := by
  intro i
  have hscaled : signed32 i * scale = i.toInt * 65536 := rfl
  have htrip := reads_toint_fromint i
  rcases sat32_cases (signed32 i * scale) with ⟨h, e⟩ | ⟨h, e⟩ | ⟨hlo, hhi, e⟩
  · rw [e] at htrip
    exact ⟨by omega, fun _ => htrip, by omega⟩
  · rw [e] at htrip
    exact ⟨by omega, by omega, fun _ => htrip⟩
  · have hq : tdiv (signed32 i * scale) scale = signed32 i := Int.mul_tdiv_cancel _ (by decide)
    rw [e, hq] at htrip
    exact ⟨fun _ => ⟨flagByte_fromintResponse e, htrip⟩, by omega, by omega⟩

/-! ## The host-side contract -/

/-- 00_scope.md R14: the raw integer nearest to an integer is that integer scaled; the half added is floored away. -/
theorem fx_intCast (n : Int) : fx (n : Rat) = n * scale := by
  have hcast : (n : Rat) * 65536 = ((n * scale : Int) : Rat) := by simp [scale]
  have hhalf : ⌊(1 / 2 : Rat)⌋ = 0 := by norm_num
  change ⌊(n : Rat) * 65536 + 1 / 2⌋ = n * scale
  rw [hcast, Int.floor_intCast_add, hhalf, Int.add_zero]

/-- Settles O59: on an integer, `from_real` and `FROMINT` saturate the same scaled integer. -/
theorem fromRealAgreesWithFromintOnIntegers : Obligations.FromRealAgreesWithFromintOnIntegers := by
  intro a
  rw [fromReal, fx_intCast, fromintResponse]
  exact ⟨(result_respondSaturated _).symm, (satBit_respond _ (satFlags _)).symm⟩

end Sys2Proof.Proofs.Conversion
end

section
/-!
PROOFS. The statements of 41_arithmetic.md. Each command answers with the saturated response to its exact result, for
`MUL` and `DIV` a truncated quotient; the algebraic laws are read off the result field, which holds the saturated result,
and without `SAT` the exact one.
-/

namespace Sys2Proof.Proofs.Arithmetic

open Sys2Proof Sys2Proof.Machine Sys2Proof.Safety

/-! ## The commands -/

/-- Settles O29: the response is the saturated one to the exact sum. -/
theorem addAnswersSaturatedSum : Obligations.AddAnswersSaturatedSum := fun a b _ =>
  ⟨decode_commandWord rfl, addResponse a b, rfl, readsSaturated_respondSaturated _⟩

/-- Settles O30: the response is the saturated one to the exact difference. -/
theorem subAnswersSaturatedDifference : Obligations.SubAnswersSaturatedDifference := fun a b _ =>
  ⟨decode_commandWord rfl, subResponse a b, rfl, readsSaturated_respondSaturated _⟩

/-- Settles O31: the response is the saturated one to `mulExact`, the truncated quotient of the exact product. -/
theorem mulAnswersTruncatedProduct : Obligations.MulAnswersTruncatedProduct := fun a b _ =>
  ⟨decode_commandWord rfl, mulResponse a b, mulExact (signed32 a) (signed32 b), rfl, tdiv_truncates _ (by decide),
    readsSaturated_respondSaturated _⟩

/-- Settles O32: a zero divisor has the `DBZ` response; any other the saturated one to `divExact`, the truncated quotient
of the scaled dividend. -/
theorem divAnswersTruncatedQuotientOrDbz : Obligations.DivAnswersTruncatedQuotientOrDbz := by
  intro a b s
  refine ⟨decode_commandWord rfl, divResponse a b, rfl, ?_⟩
  split
  next hb =>
    rw [divResponse_zero a hb]
    exact reads_respond dbzFlags (by decide) (by decide)
  next hb =>
    rw [divResponse_ne a hb]
    exact ⟨divExact (signed32 a) (signed32 b), tdiv_truncates _ hb, readsSaturated_respondSaturated _⟩

/-! ## The algebraic laws -/

/-- 10_state.md R25: without `SAT` the result field holds the exact result. -/
theorem result_of_not_satBit {v : Int} (h : satBit (respondSaturated v) = false) :
    signed32 (resultField (respondSaturated v)) = v := by
  have hin : ¬(v > 2147483647 ∨ v < -2147483648) := by rw [← satBit_respondSaturated, h]; decide
  have hmem : sat32 v = (v, false) := sat32_of_mem (by omega) (by omega)
  rw [signed32, result_respondSaturated, hmem]

/-- The saturated response to an operand's own value says that value, without a flag (30_encoding.md R42). -/
theorem reads_respondSaturated_signed32 (a : Word32) :
    Reads (respondSaturated (signed32 a)) a.toInt false false false := by
  obtain ⟨-, -, hin⟩ := readsSaturated_respondSaturated (signed32 a)
  exact hin (signed32_range a)

/-- Settles O33: the first command gives its exact result, and from it the second gives the first operand exactly. -/
theorem addAndSubAreMutualInverses : Obligations.AddAndSubAreMutualInverses := by
  refine fun a b => ⟨fun h => ?_, fun h => ?_⟩
  · have hsum : signed32 (resultField (addResponse a b)) = signed32 a + signed32 b := result_of_not_satBit h
    rw [subResponse, hsum, Int.add_sub_cancel]
    exact reads_respondSaturated_signed32 a
  · have hdiff : signed32 (resultField (subResponse a b)) = signed32 a - signed32 b := result_of_not_satBit h
    rw [addResponse, hdiff, Int.sub_add_cancel]
    exact reads_respondSaturated_signed32 a

/-- 41_arithmetic.md R69 item 2: a greater exact result has no smaller result field. -/
theorem result_respondSaturated_mono {v w : Int} (h : v ≤ w) :
    (resultField (respondSaturated v)).toInt ≤ (resultField (respondSaturated w)).toInt := by
  rw [result_respondSaturated, result_respondSaturated]
  exact sat32_mono h

/-- Settles O34: the exact sum and the exact difference are non-decreasing in the first operand. -/
theorem addAndSubAreMonotone : Obligations.AddAndSubAreMonotone := fun _ _ b h =>
  ⟨result_respondSaturated_mono (Int.add_le_add_right h b.toInt),
    result_respondSaturated_mono (Int.sub_le_sub_right h b.toInt)⟩

end Sys2Proof.Proofs.Arithmetic
end

section
/-!
PROOFS. The statements of 42_sign_rounding.md. `FLOOR`, `CEIL` and `ROUND` are one operation: the saturated floor of the
operand plus a bias of 0, 65535 or 32768. The laws follow from whether the bias carries the fraction, which `MOD` gives,
over to the next integer.
-/

namespace Sys2Proof.Proofs.SignRounding

open Sys2Proof Sys2Proof.Machine Sys2Proof.Safety Sys2Proof.Proofs.Arithmetic

/-- 30_encoding.md R42: `MIN <= a <= MAX`, in the spelling of the statements. -/
theorem toInt_range (a : Word32) : -2147483648 ≤ a.toInt ∧ a.toInt ≤ 2147483647 := signed32_range a

/-! ## Sign and magnitude -/

theorem signRaw_of_pos {v : Int} (h : v > 0) : signRaw v = 65536 := if_pos h

theorem signRaw_of_neg {v : Int} (h : v < 0) : signRaw v = -65536 := (if_neg (by omega)).trans (if_pos h)

/-- Settles O35: the raw results are ±65536 and 0, each in range. -/
theorem signAnswersFixedUnit : Obligations.SignAnswersFixedUnit := by
  intro a b s
  refine ⟨decode_commandWord rfl, signResponse a, rfl, fun h => ?_, fun h => ?_, fun h => ?_⟩ <;> rw [signResponse]
  · rw [signRaw_of_pos h]
    exact reads_respond noFlags (by decide) (by decide)
  · rw [signed32, h]
    exact reads_respond noFlags (by decide) (by decide)
  · rw [signRaw_of_neg h]
    exact reads_respond noFlags (by decide) (by decide)

/-- 42_sign_rounding.md R76: the exact result of `ABS` is the magnitude. -/
theorem absResponse_eq (a : Word32) : absResponse a = respondSaturated a.toInt.natAbs := by
  have hmagnitude : (if a.toInt ≥ 0 then a.toInt else -a.toInt) = a.toInt.natAbs := by split <;> omega
  rw [absResponse, hmagnitude]

/-- Settles O36: the magnitude lies above the range for `MIN`, and for no other operand. -/
theorem absAnswersMagnitude : Obligations.AbsAnswersMagnitude := by
  intro a b s
  refine ⟨decode_commandWord rfl, absResponse a, rfl, ?_⟩
  obtain ⟨habove, -, hin⟩ := readsSaturated_respondSaturated a.toInt.natAbs
  rw [absResponse_eq]
  refine ⟨fun h => habove (by rw [h]; decide), fun h => hin ?_⟩
  have hmin : a.toInt ≠ -2147483648 := fun hmin => h (BitVec.eq_of_toInt_eq hmin)
  obtain ⟨hlo, hhi⟩ := toInt_range a
  omega

/-! ## The floor of a raw integer -/

/-- 42_sign_rounding.md R77: the floor is the multiple of 65536 at or less than 65536 below. -/
theorem floorRaw_spec (v : Int) : floorRaw v % 65536 = 0 ∧ floorRaw v ≤ v ∧ v < floorRaw v + 65536 := by
  rw [floorRaw_eq]
  omega

theorem floorRaw_mono {v w : Int} (h : v ≤ w) : floorRaw v ≤ floorRaw w := by
  rw [floorRaw_eq, floorRaw_eq]
  omega

/-- 42_sign_rounding.md R77, R80: an integer-valued raw integer is its own floor. -/
theorem floorRaw_of_emod_eq_zero {v : Int} (h : v % 65536 = 0) : floorRaw v = v := by
  rw [floorRaw_eq]
  omega

/-- 42_sign_rounding.md R81 laws 3 and 4: a bias that leaves the fraction below 1.0 does not change the floor. -/
theorem floorRaw_add_of_no_carry {v bias : Int} (hbias : 0 ≤ bias) (h : v - floorRaw v + bias < 65536) :
    floorRaw (v + bias) = floorRaw v := by
  simp only [floorRaw_eq] at h ⊢
  omega

/-- 42_sign_rounding.md R81 laws 3 and 4: a bias of at most 1.0 that brings the fraction to 1.0 or more moves the floor up
by 1.0. -/
theorem floorRaw_add_of_carry {v bias : Int} (hbias : bias ≤ 65536) (h : 65536 ≤ v - floorRaw v + bias) :
    floorRaw (v + bias) = floorRaw v + 65536 := by
  simp only [floorRaw_eq] at h ⊢
  omega

/-! ## The fraction bits -/

/-- 00_scope.md R10: `bits32(v)` is `v mod 2^32`. -/
theorem toNat_bits32 (v : Int) : ((bits32 v).toNat : Int) = v % 4294967296 := by
  rw [bits32, BitVec.toNat_ofInt]
  exact Int.toNat_of_nonneg (Int.emod_nonneg v (by decide))

/-- 00_scope.md R10: the two readings of a pattern agree modulo 2^32. -/
theorem toNat_eq_toInt_emod (a : Word32) : (a.toNat : Int) = a.toInt % 4294967296 := by
  rw [← toNat_bits32, bits32_signed32]

/-- A pattern is integer-valued where its low 16 bits are 0. -/
theorem extractLsb'_eq_zero_iff (a : Word32) : a.extractLsb' 0 16 = 0 ↔ a.toInt % 65536 = 0 := by
  have hfraction : (a.extractLsb' 0 16).toNat = a.toNat % 65536 := by
    rw [BitVec.extractLsb'_toNat, Nat.shiftRight_zero]
  have hreadings := toNat_eq_toInt_emod a
  rw [← BitVec.toNat_inj, hfraction, BitVec.ofNat_eq_ofNat, BitVec.toNat_ofNat, Nat.zero_mod]
  omega

/-- 42_sign_rounding.md R80: `MOD` as a bit operation. -/
theorem bits32_fraction (a : Word32) : bits32 (a.toInt - floorRaw a.toInt) = a &&& 0x0000FFFF#32 := by
  have hmask : (a &&& 0x0000FFFF#32).toNat = a.toNat % 65536 := Nat.and_two_pow_sub_one_eq_mod a.toNat 16
  have hbits := toNat_bits32 (a.toInt - floorRaw a.toInt)
  have hreadings := toNat_eq_toInt_emod a
  rw [floorRaw_eq] at hbits ⊢
  apply BitVec.eq_of_toNat_eq
  omega

/-- 42_sign_rounding.md R77: `FLOOR` as a bit operation, the low 16 bits shifted out and 0 bits shifted in. -/
theorem bits32_floorRaw (a : Word32) : bits32 (floorRaw a.toInt) = a &&& 0xFFFF0000#32 := by
  have hshift : a >>> 16 <<< 16 = a &&& 0xFFFF0000#32 := BitVec.shiftLeft_ushiftRight
  have hbits := toNat_bits32 (floorRaw a.toInt)
  have hreadings := toNat_eq_toInt_emod a
  rw [floorRaw_eq] at hbits ⊢
  rw [← hshift]
  apply BitVec.eq_of_toNat_eq
  rw [BitVec.toNat_shiftLeft, BitVec.toNat_ushiftRight, Nat.shiftLeft_eq, Nat.shiftRight_eq_div_pow]
  omega

/-! ## The commands -/

/-- 42_sign_rounding.md R78, in the spelling of the statements. -/
theorem ceilResponse_eq (a : Word32) : ceilResponse a = respondSaturated (floorRaw (a.toInt + 65535)) := rfl

/-- 42_sign_rounding.md R79, in the spelling of the statements. -/
theorem roundResponse_eq (a : Word32) : roundResponse a = respondSaturated (floorRaw (a.toInt + 32768)) := rfl

/-- 42_sign_rounding.md R77: the exact result of `FLOOR` lies in range. -/
theorem floorRaw_toInt_range (a : Word32) : -2147483648 ≤ floorRaw a.toInt ∧ floorRaw a.toInt ≤ 2147483647 := by
  obtain ⟨hlo, hhi⟩ := toInt_range a
  obtain ⟨hfloorLo, hfloorHi⟩ := floorRaw_range hlo hhi
  exact ⟨hfloorLo, by omega⟩

/-- 42_sign_rounding.md R77: the response of `FLOOR` is the saturated one too. -/
theorem floorResponse_eq (a : Word32) : floorResponse a = respondSaturated (floorRaw a.toInt) := by
  obtain ⟨hlo, hhi⟩ := floorRaw_toInt_range a
  exact (respondSaturated_of_mem hlo hhi).symm

/-- 42_sign_rounding.md R77: what the response to `FLOOR` says. -/
theorem reads_floorResponse (a : Word32) : Reads (floorResponse a) (floorRaw a.toInt) false false false := by
  obtain ⟨hlo, hhi⟩ := floorRaw_toInt_range a
  exact reads_respond noFlags hlo hhi

/-- 42_sign_rounding.md R80: what the response to `MOD` says; a fraction lies far inside the range. -/
theorem reads_modResponse (a : Word32) : Reads (modResponse a) (a.toInt - floorRaw a.toInt) false false false := by
  obtain ⟨-, hle, hlt⟩ := floorRaw_spec a.toInt
  exact reads_respond (v := a.toInt - floorRaw a.toInt) noFlags (by omega) (by omega)

/-- Settles O37: the floor meets its specification and lies in range; it is the mask by `bits32_floorRaw`. -/
theorem floorAnswersIntegerBelow : Obligations.FloorAnswersIntegerBelow := by
  intro a b s
  obtain ⟨hmultiple, hle, hlt⟩ := floorRaw_spec a.toInt
  exact ⟨decode_commandWord rfl, floorResponse a, floorRaw a.toInt, rfl, reads_floorResponse a, hmultiple, hle, hlt,
    (resultField_respond _ _).trans (bits32_floorRaw a)⟩

/-- Settles O38: the response is the saturated one to the floor of the operand plus 65535. -/
theorem ceilAnswersIntegerAbove : Obligations.CeilAnswersIntegerAbove := by
  intro a b s
  obtain ⟨hmultiple, hle, hlt⟩ := floorRaw_spec (a.toInt + 65535)
  obtain ⟨hlo, hhi⟩ := toInt_range a
  refine ⟨decode_commandWord rfl, ceilResponse a, floorRaw (a.toInt + 65535), rfl, readsSaturated_respondSaturated _,
    hmultiple, by omega, by omega, ?_⟩
  rw [ceilResponse_eq, satBit_respondSaturated]
  omega

/-- Settles O39: the response is the saturated one to the floor of the operand plus 32768. -/
theorem roundAnswersNearestHalfUp : Obligations.RoundAnswersNearestHalfUp := by
  intro a b s
  obtain ⟨hmultiple, hle, hlt⟩ := floorRaw_spec (a.toInt + 32768)
  obtain ⟨hlo, hhi⟩ := toInt_range a
  refine ⟨decode_commandWord rfl, roundResponse a, floorRaw (a.toInt + 32768), rfl, readsSaturated_respondSaturated _,
    hmultiple, by omega, by omega, ?_⟩
  rw [roundResponse_eq, satBit_respondSaturated]
  omega

/-- Settles O40: the operand less its floor is below 65536 by the floor's specification; it is the mask by
`bits32_fraction`. -/
theorem modAnswersFraction : Obligations.ModAnswersFraction := by
  intro a b s
  obtain ⟨hmultiple, hle, hlt⟩ := floorRaw_spec a.toInt
  exact ⟨decode_commandWord rfl, modResponse a, a.toInt - floorRaw a.toInt, floorRaw a.toInt, rfl,
    reads_modResponse a, hmultiple, rfl, by omega, by omega, (resultField_respond _ _).trans (bits32_fraction a)⟩

/-! ## The laws of 42_sign_rounding.md R81 -/

theorem result_floorResponse (a : Word32) : (resultField (floorResponse a)).toInt = floorRaw a.toInt :=
  (reads_floorResponse a).1

theorem result_modResponse (a : Word32) : (resultField (modResponse a)).toInt = a.toInt - floorRaw a.toInt :=
  (reads_modResponse a).1

/-- 43_comparison.md R86: where the first operand is not above the second, `LE` answers 1. -/
theorem result_leResponse_of_le {a b : Word32} (h : a.toInt ≤ b.toInt) : resultField (leResponse a b) = 1#32 := by
  rw [leResponse, decide_eq_true h]
  exact resultField_respond _ _

/-- Law 1. The saturated ceiling is no smaller than the operand, for the operand lies in range itself. -/
theorem toInt_le_result_ceilResponse (a : Word32) : a.toInt ≤ (resultField (ceilResponse a)).toInt := by
  obtain ⟨hlo, hhi⟩ := toInt_range a
  obtain ⟨-, -, hlt⟩ := floorRaw_spec (a.toInt + 65535)
  calc a.toInt
      = (sat32 a.toInt).1 := by rw [sat32_of_mem hlo hhi]
    _ ≤ (sat32 (floorRaw (a.toInt + 65535))).1 := sat32_mono (by omega)
    _ = (resultField (ceilResponse a)).toInt := (result_respondSaturated _).symm

/-- Law 2: the exact sum is the operand. -/
theorem reads_floor_add_mod (a : Word32) :
    Reads (addResponse (resultField (floorResponse a)) (resultField (modResponse a))) a.toInt false false false := by
  rw [addResponse, signed32, signed32, result_floorResponse, result_modResponse, add_sub_cancel]
  exact reads_respondSaturated_signed32 a

/-- Laws 3 and 4, where the bias does not carry: the answer is that of `FLOOR`. -/
theorem respondSaturated_eq_floorResponse {a : Word32} {bias : Int} (hbias : 0 ≤ bias)
    (h : (resultField (modResponse a)).toInt + bias < 65536) :
    respondSaturated (floorRaw (a.toInt + bias)) = floorResponse a := by
  rw [result_modResponse] at h
  rw [floorRaw_add_of_no_carry hbias h, floorResponse_eq]

/-- Laws 3 and 4, where the bias carries: the answer is `FLOOR` plus 1.0, saturated. -/
theorem readsSaturated_floor_add_one {a : Word32} {bias : Int} (hbias : bias ≤ 65536)
    (h : 65536 ≤ (resultField (modResponse a)).toInt + bias) :
    ReadsSaturated (respondSaturated (floorRaw (a.toInt + bias)))
      ((resultField (floorResponse a)).toInt + 65536) := by
  rw [result_modResponse] at h
  rw [result_floorResponse, floorRaw_add_of_carry hbias h]
  exact readsSaturated_respondSaturated _

/-- Law 3, no fraction. -/
theorem ceilResponse_of_mod_eq_zero {a : Word32} (h : resultField (modResponse a) = 0) :
    ceilResponse a = floorResponse a :=
  respondSaturated_eq_floorResponse (by decide) (by rw [h]; decide)

/-- Law 3, a fraction, which is at least 1 of 65536 parts. -/
theorem readsSaturated_ceilResponse {a : Word32} (h : resultField (modResponse a) ≠ 0) :
    ReadsSaturated (ceilResponse a) ((resultField (floorResponse a)).toInt + 65536) := by
  have hne : (resultField (modResponse a)).toInt ≠ 0 := mt signed32_eq_zero.mp h
  obtain ⟨-, hle, -⟩ := floorRaw_spec a.toInt
  refine readsSaturated_floor_add_one (by decide) ?_
  rw [result_modResponse] at hne ⊢
  omega

/-- Law 4, a fraction below a half. -/
theorem roundResponse_of_mod_lt {a : Word32} (h : (resultField (modResponse a)).toInt < 0x8000) :
    roundResponse a = floorResponse a :=
  respondSaturated_eq_floorResponse (by decide) (by omega)

/-- Law 4, a fraction of a half or more. -/
theorem readsSaturated_roundResponse {a : Word32} (h : (resultField (modResponse a)).toInt ≥ 0x8000) :
    ReadsSaturated (roundResponse a) ((resultField (floorResponse a)).toInt + 65536) :=
  readsSaturated_floor_add_one (by decide) (by omega)

/-- Law 5, of the three commands by their bias: no greater operand has a smaller answer. -/
theorem result_floorRaw_mono {v w : Int} (h : v ≤ w) :
    (resultField (respondSaturated (floorRaw v))).toInt ≤ (resultField (respondSaturated (floorRaw w))).toInt :=
  result_respondSaturated_mono (floorRaw_mono h)

/-- Law 5: an integer-valued operand has no fraction, so `CEIL` and `ROUND` answer as `FLOOR` does, with the operand. -/
theorem result_of_integer_valued {a : Word32} (h : a.extractLsb' 0 16 = 0) :
    resultField (floorResponse a) = a ∧ resultField (ceilResponse a) = a ∧ resultField (roundResponse a) = a := by
  have hfloorRaw : floorRaw a.toInt = a.toInt := floorRaw_of_emod_eq_zero ((extractLsb'_eq_zero_iff a).mp h)
  have hmod : (resultField (modResponse a)).toInt = 0 := by rw [result_modResponse, hfloorRaw, Int.sub_self]
  have hfloor : resultField (floorResponse a) = a := by
    rw [floorResponse, resultField_respond, hfloorRaw, bits32_signed32]
  rw [ceilResponse_of_mod_eq_zero (signed32_eq_zero.mp hmod), roundResponse_of_mod_lt (by omega)]
  exact ⟨hfloor, hfloor, hfloor⟩

/-- Law 6, of the three commands by their bias: without `SAT` the result field holds the floor itself. -/
theorem no_fraction_of_not_satBit {v : Int} (h : satBit (respondSaturated (floorRaw v)) = false) :
    (resultField (respondSaturated (floorRaw v))).extractLsb' 0 16 = 0 := by
  have hresult : (resultField (respondSaturated (floorRaw v))).toInt = floorRaw v := result_of_not_satBit h
  obtain ⟨hmultiple, -, -⟩ := floorRaw_spec v
  rw [extractLsb'_eq_zero_iff, hresult, hmultiple]

/-- `FLOOR` never saturates, so law 6 has no premise for it. -/
theorem no_fraction_floorResponse (a : Word32) : (resultField (floorResponse a)).extractLsb' 0 16 = 0 := by
  have hsat : satBit (floorResponse a) = false := satBit_respond _ _
  rw [floorResponse_eq] at hsat ⊢
  exact no_fraction_of_not_satBit hsat

/-- Settles O41: the laws of R81, one lemma or two each. -/
theorem roundingLaws : Obligations.RoundingLaws := by
  refine ⟨fun a => ⟨?_, ?_⟩, reads_floor_add_mod, fun a => ⟨ceilResponse_of_mod_eq_zero, readsSaturated_ceilResponse⟩,
    fun a => ⟨roundResponse_of_mod_lt, readsSaturated_roundResponse⟩, fun a a' h => ⟨?_, ?_, ?_⟩,
    fun a => result_of_integer_valued,
    fun a => ⟨no_fraction_floorResponse a, no_fraction_of_not_satBit, no_fraction_of_not_satBit⟩⟩
  · obtain ⟨-, hle, -⟩ := floorRaw_spec a.toInt
    exact result_leResponse_of_le ((result_floorResponse a).trans_le hle)
  · exact result_leResponse_of_le (toInt_le_result_ceilResponse a)
  · rw [floorResponse_eq, floorResponse_eq]
    exact result_floorRaw_mono h
  · exact result_floorRaw_mono (Int.add_le_add_right h 65535)
  · exact result_floorRaw_mono (Int.add_le_add_right h 32768)

end Sys2Proof.Proofs.SignRounding
end

section
/-!
PROOFS. The statements of 43_comparison.md. A comparison answers a truth value, so what its response says is said once of
`boolResponse`; the laws of R90 are then facts of the order of the signed readings.
-/

namespace Sys2Proof.Proofs.Comparison

open Sys2Proof Sys2Proof.Machine Sys2Proof.Safety Sys2Proof.Proofs.SignRounding

/-! ## The response to a truth value -/

/-- 10_state.md R23: what the response to a verdict says, never a flag. -/
theorem reads_boolResponse (p : Prop) [Decidable p] :
    Reads (boolResponse (decide p)) (if p then 1 else 0) false false false := by
  by_cases h : p
  · rw [decide_eq_true h, if_pos h]
    exact reads_respond noFlags (by decide) (by decide)
  · rw [decide_eq_false h, if_neg h]
    exact reads_respond noFlags (by decide) (by decide)

/-- The result field of a verdict, as a signed integer. -/
theorem result_boolResponse (p : Prop) [Decidable p] :
    (resultField (boolResponse (decide p))).toInt = if p then 1 else 0 := (reads_boolResponse p).1

/-- 43_comparison.md R90: bits 31:1 of the response to a verdict are 0. -/
theorem resultField_boolResponse_zero_or_one (v : Bool) :
    resultField (boolResponse v) = 0#32 ∨ resultField (boolResponse v) = 1#32 := by
  cases v with
  | false => exact .inl (resultField_respond 0 noFlags)
  | true => exact .inr (resultField_respond 1 noFlags)

/-- Opposite verdicts are answered with 1 and 0, in either order. -/
theorem result_boolResponse_of_iff_not {p q : Prop} [Decidable p] [Decidable q] (h : p ↔ ¬q) :
    (resultField (boolResponse (decide p))).toInt = 1 - (resultField (boolResponse (decide q))).toInt := by
  rw [result_boolResponse, result_boolResponse]
  by_cases hq : q
  · rw [if_pos hq, if_neg (mt h.mp (not_not_intro hq)), Int.sub_self]
  · rw [if_neg hq, if_pos (h.mpr hq), Int.sub_zero]

/-! ## The commands -/

/-- 43_comparison.md R89: equal values have identical patterns. -/
theorem eqResponse_eq (a b : Word32) : eqResponse a b = boolResponse (decide (a = b)) :=
  congrArg boolResponse (decide_eq_decide.mpr BitVec.toInt_inj)

/-- Settles O42: each response is the one to the verdict on the signed readings, for `EQ` the one on the patterns. -/
theorem comparisonsAnswerSignedVerdict : Obligations.ComparisonsAnswerSignedVerdict := by
  intro a b s
  refine ⟨⟨decode_commandWord rfl, ltResponse a b, rfl, reads_boolResponse _⟩,
    ⟨decode_commandWord rfl, leResponse a b, rfl, reads_boolResponse _⟩,
    ⟨decode_commandWord rfl, gtResponse a b, rfl, reads_boolResponse _⟩,
    ⟨decode_commandWord rfl, geResponse a b, rfl, reads_boolResponse _⟩,
    ⟨decode_commandWord rfl, eqResponse a b, rfl, ?_⟩⟩
  rw [eqResponse_eq]
  exact reads_boolResponse _

/-! ## The laws of 43_comparison.md R90 -/

/-- The order of the integers is total: one of the three verdicts is true, and it excludes the other two. -/
theorem result_lt_add_eq_add_gt (a b : Word32) :
    (resultField (ltResponse a b)).toInt + (resultField (eqResponse a b)).toInt +
      (resultField (gtResponse a b)).toInt = 1 := by
  rw [ltResponse, eqResponse, gtResponse, result_boolResponse, result_boolResponse, result_boolResponse]
  rcases lt_trichotomy a.toInt b.toInt with hlt | heq | hgt
  · rw [if_pos hlt, if_neg hlt.ne, if_neg hlt.asymm]
    rfl
  · rw [if_neg heq.not_lt, if_pos heq, if_neg heq.not_gt]
    rfl
  · rw [if_neg hgt.asymm, if_neg hgt.ne', if_pos hgt]
    rfl

/-- `LE` answers 1 exactly where the first operand is not above the second. -/
theorem resultField_leResponse_eq_one {a b : Word32} : resultField (leResponse a b) = 1#32 ↔ a.toInt ≤ b.toInt := by
  refine ⟨fun hone => ?_, result_leResponse_of_le⟩
  by_contra hle
  have hzero : (resultField (leResponse a b)).toInt = 0 := (result_boolResponse _).trans (if_neg hle)
  rw [hone] at hzero
  exact absurd hzero (by decide)

/-- Settles O43: trichotomy and the two complements by the total order; the exchanged commands have one response by
definition; `LE` is transitive as `≤` is; each of the five is the response to a truth value. -/
theorem comparisonLaws : Obligations.ComparisonLaws := by
  intro a b c
  refine ⟨result_lt_add_eq_add_gt a b, result_boolResponse_of_iff_not Int.not_lt.symm,
    result_boolResponse_of_iff_not Int.not_lt.symm, rfl, rfl, fun hab hbc => ?_, ?_⟩
  · rw [resultField_leResponse_eq_one] at hab hbc ⊢
    exact hab.trans hbc
  · simp only [List.forall_mem_cons]
    exact ⟨resultField_boolResponse_zero_or_one _, resultField_boolResponse_zero_or_one _,
      resultField_boolResponse_zero_or_one _, resultField_boolResponse_zero_or_one _,
      resultField_boolResponse_zero_or_one _, nofun⟩

end Sys2Proof.Proofs.Comparison
end

section
/-!
PROOFS. The statements of 44_trig_core.md. The phase is read off the product's number modulo 2^78; the values after `i`
iterations of a CORDIC loop are the loop on the first `i` table entries, which makes the recurrence a fact about appending
one entry; the ranges are those of Laws/Trig.lean, carried to the result fields.
-/

namespace Sys2Proof.Proofs.TrigCore

open Sys2Proof Sys2Proof.Machine Sys2Proof.Safety

/-! ## The phase -/

/-- 44_trig_core.md R94: the two's complement product is the exact product of the signed readings, in 78 bits. -/
theorem signExtend_mul_invTwoPi (a : Word32) :
    a.signExtend 78 * 44798133900177#78 = BitVec.ofInt 78 (a.toInt * invTwoPiQ48) := by
  rw [BitVec.ofInt_mul]
  rfl

/-- 44_trig_core.md R94: the number that product is. -/
theorem toNat_signExtend_mul_invTwoPi (a : Word32) :
    ((a.signExtend 78 * 44798133900177#78).toNat : Int) = a.toInt * invTwoPiQ48 % 2 ^ 78 := by
  rw [signExtend_mul_invTwoPi, BitVec.toNat_ofInt]
  exact Int.toNat_of_nonneg (Int.emod_nonneg _ (by decide))

/-- A field of a word, as arithmetic on its number. -/
theorem toNat_extractLsb'_eq_div_mod {w : Nat} (r : BitVec w) (start len : Nat) :
    (r.extractLsb' start len).toNat = r.toNat / 2 ^ start % 2 ^ len := by
  rw [BitVec.extractLsb'_toNat, Nat.shiftRight_eq_div_pow]

/-- Settles O44: each of the three is a quotient and a remainder of the exact product by powers of two, none of which sees
what lies above bit 77. -/
theorem phaseIsProductBits : Obligations.PhaseIsProductBits := by
  intro a product
  have hproduct : (product.toNat : Int) = a.toInt * invTwoPiQ48 % 2 ^ 78 := toNat_signExtend_mul_invTwoPi a
  rw [quadrantOf, firstQuadrantOf, phaseOf, asr_32, toNat_extractLsb'_eq_div_mod, toNat_extractLsb'_eq_div_mod,
    toNat_extractLsb'_eq_div_mod]
  generalize a.toInt * invTwoPiQ48 = exact at *
  omega

/-! ## The iterations of the two CORDIC loops -/

section
variable {stepOf : Nat → Int → Cordic → Cordic} {loop : Nat → List Int → Cordic → Cordic}
  (hnil : ∀ i v, loop i [] v = v) (hcons : ∀ i t rest v, loop i (t :: rest) v = loop (i + 1) rest (stepOf i t v))
include hnil hcons

/-- A loop that takes one step for each table entry left ends with the step of the last entry. -/
theorem loop_concat (table : List Int) (t : Int) (i : Nat) (v : Cordic) :
    loop i (table ++ [t]) v = stepOf (i + table.length) t (loop i table v) := by
  induction table generalizing i v with
  | nil => rw [List.nil_append, hcons, hnil, hnil, List.length_nil, Nat.add_zero]
  | cons u rest ih => rw [List.cons_append, hcons, hcons, ih, List.length_cons, Nat.add_assoc, Nat.add_comm 1]

/-- The loop on one entry more takes one step more, with that entry's number and angle. -/
theorem loop_take_succ {table : List Int} {i : Nat} (hi : i < table.length) (v : Cordic) :
    loop 0 (table.take (i + 1)) v = stepOf i (table.getD i 0) (loop 0 (table.take i) v) := by
  rw [← List.take_concat_get' table i hi, loop_concat hnil hcons, List.length_take_of_le hi.le, Nat.zero_add,
    List.getD_eq_getElem _ _ hi]

end

/-- The values of `cordic_rotate(r)` before iteration `i` (44_trig_core.md R96). -/
def rotateBefore (r : Int) (i : Nat) : Cordic := rotateFrom 0 (atanTab.take i) ⟨kinvQ30, 0, r⟩

/-- The values of `cordic_vector(x0, y0)` before iteration `i` (44_trig_core.md R97). -/
def vectorBefore (x0 y0 : Int) (i : Nat) : Cordic := vectorFrom 0 (atanTab.take i) ⟨x0, y0, 0⟩

theorem rotateBefore_succ (r : Int) {i : Nat} (hi : i < 28) :
    rotateBefore r (i + 1) = rotateStep i (atanTab.getD i 0) (rotateBefore r i) :=
  loop_take_succ rotateFrom_nil rotateFrom_cons hi _

theorem vectorBefore_succ (x0 y0 : Int) {i : Nat} (hi : i < 28) :
    vectorBefore x0 y0 (i + 1) = vectorStep i (atanTab.getD i 0) (vectorBefore x0 y0 i) :=
  loop_take_succ vectorFrom_nil vectorFrom_cons hi _

/-- Settles O45: the values before each iteration follow `rotateStep`, whose two cases are the recurrence's. -/
theorem rotationFollowsItsRecurrence : Obligations.RotationFollowsItsRecurrence := by
  refine ⟨rfl, fun r => ⟨fun i => (rotateBefore r i).x, fun i => (rotateBefore r i).y, fun i => (rotateBefore r i).z,
    rfl, rfl, rfl, fun i hi => ?_, rfl⟩⟩
  simp only [rotateBefore_succ r hi]
  refine ⟨fun hz => ?_, fun hz => ?_⟩
  · rw [rotateStep_pos i _ hz]
    exact ⟨rfl, rfl, rfl⟩
  · rw [rotateStep_neg i _ hz]
    exact ⟨rfl, rfl, rfl⟩

/-- Settles O46: the values before each iteration follow `vectorStep`, whose two cases are the recurrence's. -/
theorem vectoringFollowsItsRecurrence : Obligations.VectoringFollowsItsRecurrence := by
  refine ⟨rfl, fun x0 y0 => ⟨fun i => (vectorBefore x0 y0 i).x, fun i => (vectorBefore x0 y0 i).y,
    fun i => (vectorBefore x0 y0 i).z, rfl, rfl, rfl, fun i hi => ?_, rfl⟩⟩
  simp only [vectorBefore_succ x0 y0 hi]
  refine ⟨fun hy => ?_, fun hy => ?_⟩
  · rw [vectorStep_pos i _ hy]
    exact ⟨rfl, rfl, rfl⟩
  · rw [vectorStep_neg i _ hy]
    exact ⟨rfl, rfl, rfl⟩

/-! ## The ranges of 44_trig_core.md R100 -/

/-- Fact 1: the phase is below one turn, so its top two bits are 0 to 3. -/
theorem phase_fields_range (a : Int) :
    0 ≤ phaseOf a ∧ phaseOf a < 2 ^ 32 ∧ 0 ≤ quadrantOf (phaseOf a) ∧ quadrantOf (phaseOf a) ≤ 3 ∧
      0 ≤ firstQuadrantOf (phaseOf a) ∧ firstQuadrantOf (phaseOf a) < 2 ^ 30 := by
  obtain ⟨hlo, hhi⟩ := phaseOf_range a
  rw [quadrantOf, firstQuadrantOf]
  omega

/-- 30_encoding.md R41: the result field of a response holds a value that lies between bounds in range. -/
theorem result_respond_range {v lo hi : Int} (f : Flags) (hv : lo ≤ v ∧ v ≤ hi) (hlo : -2147483648 ≤ lo)
    (hhi : hi ≤ 2147483647) : lo ≤ (resultField (respond v f)).toInt ∧ (resultField (respond v f)).toInt ≤ hi := by
  have hresult : (resultField (respond v f)).toInt = v :=
    (reads_respond f (hlo.trans hv.1) (hv.2.trans hhi)).1
  rwa [hresult]

/-- Fact 2, of `SIN` and `COS`. -/
theorem result_sin_cos_range (a : Word32) :
    -65536 ≤ (resultField (sinResponse a)).toInt ∧ (resultField (sinResponse a)).toInt ≤ 65536 ∧
      -65536 ≤ (resultField (cosResponse a)).toInt ∧ (resultField (cosResponse a)).toInt ≤ 65536 := by
  obtain ⟨hsinLo, hsinHi⟩ := result_respond_range noFlags (sinRaw_range (signed32 a)) (by decide) (by decide)
  obtain ⟨hcosLo, hcosHi⟩ := result_respond_range noFlags (cosRaw_range (signed32 a)) (by decide) (by decide)
  exact ⟨hsinLo, hsinHi, hcosLo, hcosHi⟩

/-- Fact 3, the angle after its clamp and after its reflection. -/
theorem atanAngle_reflected_range (ax ay : Nat) :
    0 ≤ atanAngle ax ay ∧ atanAngle ax ay ≤ 2 ^ 30 ∧
      0 ≤ 2 ^ 31 - atanAngle ax ay ∧ 2 ^ 31 - atanAngle ax ay ≤ 2 ^ 31 := by
  obtain ⟨hlo, hhi⟩ := atanAngle_range ax ay
  omega

/-- Fact 3, of `ATAN2`. -/
theorem result_atan2_range (a b : Word32) :
    -205887 ≤ (resultField (atan2Response a b)).toInt ∧ (resultField (atan2Response a b)).toInt ≤ 205887 :=
  result_respond_range noFlags (atan2Raw_range (signed32 a) (signed32 b)) (by decide) (by decide)

/-- Fact 4, the shift: `31 - n` is at most 31. -/
theorem atanShift_le (ax ay : Nat) : atanShift ax ay ≤ 31 := Nat.sub_le _ _

/-- Fact 5, a zero denominator: the value of the numerator's sign, with `SAT`. -/
theorem reads_tanQuotient_zero (num : Int) :
    Reads (tanQuotient num 0) (if num ≥ 0 then 2147483647 else -2147483648) true false false := by
  rw [tanQuotient_zero num rfl]
  refine reads_respond (satFlags true) ?_ ?_ <;> split <;> decide

/-- Settles O47: facts 1 to 5 in order; the shift of fact 4 normalises by `atanShift_normalises`, and a denominator other
than zero of fact 5 gives the saturated response to the truncated quotient. -/
theorem rangesByConstruction : Obligations.RangesByConstruction := by
  refine ⟨phase_fields_range, roundQ30ToQ16_range, result_sin_cos_range, atanAngle_reflected_range,
    fun m hlo hhi => phaseToRadians_range hlo (by omega), result_atan2_range, fun ax ay hx hxle hy hyle => ?_,
    fun num den => ?_⟩
  · exact ⟨atanShift_le ax ay, atanShift_normalises (by omega) (by omega)⟩
  · split
    next hden =>
      rw [hden]
      exact reads_tanQuotient_zero num
    next hden =>
      rw [tanQuotient_ne num hden]
      exact ⟨tdiv (num * scale) den, tdiv_truncates _ hden, readsSaturated_respondSaturated _⟩

end Sys2Proof.Proofs.TrigCore
end

section
/-!
PROOFS. The statements of 45_trig_ops.md. `SIN` and `COS` select one of four values by the quadrant of the phase, and a
quarter turn on moves that selection by one; `TAN` is the quotient already known for every numerator and denominator; of
`ATAN2` a common factor changes neither the signs nor, after the normalising shift, the vector.
-/

namespace Sys2Proof.Proofs.TrigOps

open Sys2Proof Sys2Proof.Machine Sys2Proof.Safety Sys2Proof.Proofs.TrigCore

/-! ## The selection by quadrant -/

/-- One of four values, by the quadrant of a phase (45_trig_ops.md R105, R106). -/
def byQuadrant (p v0 v1 v2 v3 : Int) : Int :=
  if quadrantOf p = 0 then v0 else if quadrantOf p = 1 then v1 else if quadrantOf p = 2 then v2 else v3

theorem byQuadrant_of_quadrant {p q : Int} (h : quadrantOf p = q) (v0 v1 v2 v3 : Int) :
    byQuadrant p v0 v1 v2 v3 = if q = 0 then v0 else if q = 1 then v1 else if q = 2 then v2 else v3 := by
  rw [byQuadrant, h]

/-- The quadrants as ranges of the phase (44_trig_core.md R94, R99). -/
theorem byQuadrant_of_range {p : Int} (hlo : 0 ≤ p) (hhi : p < 4294967296) (v0 v1 v2 v3 : Int) :
    (p < 2 ^ 30 → byQuadrant p v0 v1 v2 v3 = v0) ∧ (2 ^ 30 ≤ p ∧ p < 2 ^ 31 → byQuadrant p v0 v1 v2 v3 = v1) ∧
      (2 ^ 31 ≤ p ∧ p < 3 * 2 ^ 30 → byQuadrant p v0 v1 v2 v3 = v2) ∧
      (3 * 2 ^ 30 ≤ p → byQuadrant p v0 v1 v2 v3 = v3) := by
  have hquadrant : quadrantOf p = p / 1073741824 := rfl
  exact ⟨fun _ => byQuadrant_of_quadrant (q := 0) (by omega) .., fun _ => byQuadrant_of_quadrant (q := 1) (by omega) ..,
    fun _ => byQuadrant_of_quadrant (q := 2) (by omega) .., fun _ => byQuadrant_of_quadrant (q := 3) (by omega) ..⟩

/-- A quarter turn on, modulo one turn, the selection is moved by one value. -/
theorem byQuadrant_quarterTurn {p : Int} (hlo : 0 ≤ p) (hhi : p < 4294967296) (v0 v1 v2 v3 : Int) :
    byQuadrant ((p + 1073741824) % 4294967296) v0 v1 v2 v3 = byQuadrant p v1 v2 v3 v0 := by
  have hnext : quadrantOf ((p + 1073741824) % 4294967296) = (quadrantOf p + 1) % 4 := by
    rw [quadrantOf, quadrantOf]
    omega
  have hquadrant : quadrantOf p = 0 ∨ quadrantOf p = 1 ∨ quadrantOf p = 2 ∨ quadrantOf p = 3 := by
    rw [quadrantOf]
    omega
  rw [byQuadrant_of_quadrant hnext]
  obtain h | h | h | h := hquadrant <;> rw [byQuadrant_of_quadrant h, h] <;> rfl

/-- 45_trig_ops.md R105, as a selection. -/
theorem sinRaw_eq_byQuadrant (a : Int) : sinRaw a =
    byQuadrant (phaseOf a) (roundQ30ToQ16 (sincosParts a).s30) (roundQ30ToQ16 (sincosParts a).c30)
      (-roundQ30ToQ16 (sincosParts a).s30) (-roundQ30ToQ16 (sincosParts a).c30) := sinRaw_eq a

/-- 45_trig_ops.md R106, as a selection. -/
theorem cosRaw_eq_byQuadrant (a : Int) : cosRaw a =
    byQuadrant (phaseOf a) (roundQ30ToQ16 (sincosParts a).c30) (-roundQ30ToQ16 (sincosParts a).s30)
      (-roundQ30ToQ16 (sincosParts a).c30) (roundQ30ToQ16 (sincosParts a).s30) := cosRaw_eq a

/-! ## The sine and the cosine -/

/-- 44_trig_core.md R98: the magnitude of the cosine, in plain integer arithmetic. -/
theorem roundQ30ToQ16_c30 (a : Int) : roundQ30ToQ16 (sincosParts a).c30 =
    min (max (((cordicRotate (phaseOf a % 2 ^ 30)).1 + 8192) / 2 ^ 14) 0) 65536 := by
  rw [roundQ30ToQ16_eq, sincosParts_c30]
  rfl

/-- 44_trig_core.md R98: the magnitude of the sine, in plain integer arithmetic. -/
theorem roundQ30ToQ16_s30 (a : Int) : roundQ30ToQ16 (sincosParts a).s30 =
    min (max (((cordicRotate (phaseOf a % 2 ^ 30)).2 + 8192) / 2 ^ 14) 0) 65536 := by
  rw [roundQ30ToQ16_eq, sincosParts_s30]
  rfl

/-- The plain response to a value between -1.0 and 1.0 says that value, without a flag. -/
theorem reads_respond_unit {v : Int} (h : -65536 ≤ v ∧ v ≤ 65536) : Reads (respond v noFlags) v false false false :=
  reads_respond noFlags (by omega) (by omega)

/-- Settles O48: the raw sine lies between -1.0 and 1.0 and is the selection by quadrant of the two magnitudes. -/
theorem sinAnswersByQuadrant : Obligations.SinAnswersByQuadrant := by
  intro a b s
  obtain ⟨hlo, hhi⟩ := sinRaw_range a.toInt
  obtain ⟨hphaseLo, hphaseHi⟩ := phaseOf_range a.toInt
  refine ⟨decode_commandWord rfl, sinResponse a, sinRaw a.toInt, rfl, reads_respond_unit ⟨hlo, hhi⟩, hlo, hhi, ?_⟩
  intro p cr sr
  rw [sinRaw_eq_byQuadrant, roundQ30ToQ16_c30, roundQ30ToQ16_s30]
  exact byQuadrant_of_range hphaseLo hphaseHi sr cr (-sr) (-cr)

/-- Settles O49: the raw cosine lies between -1.0 and 1.0 and is the selection by quadrant of the two magnitudes. -/
theorem cosAnswersByQuadrant : Obligations.CosAnswersByQuadrant := by
  intro a b s
  obtain ⟨hlo, hhi⟩ := cosRaw_range a.toInt
  obtain ⟨hphaseLo, hphaseHi⟩ := phaseOf_range a.toInt
  refine ⟨decode_commandWord rfl, cosResponse a, cosRaw a.toInt, rfl, reads_respond_unit ⟨hlo, hhi⟩, hlo, hhi, ?_⟩
  intro p cr sr
  rw [cosRaw_eq_byQuadrant, roundQ30ToQ16_c30, roundQ30ToQ16_s30]
  exact byQuadrant_of_range hphaseLo hphaseHi cr (-sr) (-cr) sr

/-- Settles O52: the two phases have the same first-quadrant angle, and so the same magnitudes; the selection of the sine,
moved by one quadrant, is that of the cosine. -/
theorem cosineIsSineAQuarterTurnOn : Obligations.CosineIsSineAQuarterTurnOn := by
  intro a1 a2 hphase
  obtain ⟨hlo, hhi⟩ := phaseOf_range a1.toInt
  have hangle : phaseOf a2.toInt % 2 ^ 30 = phaseOf a1.toInt % 2 ^ 30 := by omega
  have hraw : cosRaw a1.toInt = sinRaw a2.toInt := by
    rw [cosRaw_eq_byQuadrant, sinRaw_eq_byQuadrant, roundQ30ToQ16_c30, roundQ30ToQ16_s30, roundQ30ToQ16_c30,
      roundQ30ToQ16_s30, hangle, hphase]
    exact (byQuadrant_quarterTurn hlo hhi ..).symm
  rw [cosResponse, sinResponse, signed32, signed32, hraw]

/-! ## The tangent -/

/-- 44_trig_core.md R100 item 5: the last of the facts of `rangesByConstruction`, for any numerator and denominator. -/
theorem tanQuotient_answers (num den : Int) :
    if den = 0 then Reads (tanQuotient num den) (if num ≥ 0 then 2147483647 else -2147483648) true false false
    else ∃ v, TruncatesTo (num * 65536) den v ∧ ReadsSaturated (tanQuotient num den) v := by
  obtain ⟨-, -, -, -, -, -, -, hquotient⟩ := rangesByConstruction
  exact hquotient num den

/-- 45_trig_ops.md R107: numerator and denominator by the quadrant. -/
theorem tanNum_tanDen_of_quadrant (a : Int) :
    let cs := cordicRotate (phaseOf a % 2 ^ 30)
    if phaseOf a / 2 ^ 30 = 0 ∨ phaseOf a / 2 ^ 30 = 2 then tanNum (sincosParts a) = cs.2 ∧ tanDen (sincosParts a) = cs.1
    else tanNum (sincosParts a) = cs.1 ∧ tanDen (sincosParts a) = -cs.2 := by
  rw [tanNum, tanDen, sincosParts_q, sincosParts_c30, sincosParts_s30]
  split
  next h => exact ⟨if_pos h, if_pos h⟩
  next h => exact ⟨if_neg h, if_neg h⟩

/-- Settles O50: the response is `tanQuotient` of the numerator and the denominator that the quadrant selects. -/
theorem tanAnswersQuotient : Obligations.TanAnswersQuotient := fun a _ _ =>
  ⟨decode_commandWord rfl, tanResponse a, tanNum (sincosParts a.toInt), tanDen (sincosParts a.toInt), rfl,
    tanNum_tanDen_of_quadrant a.toInt, tanQuotient_answers _ _⟩

/-! ## The arctangent, case by case -/

theorem atan2Raw_x_zero {yv : Int} (hy : yv ≠ 0) : atan2Raw yv 0 = if yv > 0 then halfPiRaw else -halfPiRaw :=
  (if_neg fun h => hy h.2).trans (if_pos rfl)

theorem atan2Raw_y_zero {xv : Int} (hx : xv ≠ 0) : atan2Raw 0 xv = if xv > 0 then 0 else piRaw :=
  (if_neg fun h => hx h.1).trans ((if_neg hx).trans (if_pos rfl))

theorem atan2Raw_off_axis {yv xv : Int} (hx : xv ≠ 0) (hy : yv ≠ 0) : atan2Raw yv xv = atanOffAxis yv xv :=
  (if_neg fun h => hx h.1).trans ((if_neg hx).trans (if_neg hy))

/-- 45_trig_ops.md R108: what the response to `ATAN2` says. -/
theorem reads_atan2Response (a b : Word32) :
    Reads (atan2Response a b) (atan2Raw a.toInt b.toInt) false false false := by
  obtain ⟨hlo, hhi⟩ := atan2Raw_range (signed32 a) (signed32 b)
  exact reads_respond noFlags (by omega) (by omega)

/-- 45_trig_ops.md R108: the vectoring's angle after its clamp, in plain integer arithmetic. -/
theorem atanAngle_eq (ax ay : Nat) : atanAngle ax ay =
    min (max (cordicVector (ax * 2 ^ atanShift ax ay) (ay * 2 ^ atanShift ax ay)) 0) (2 ^ 30) := by
  simp only [atanAngle, clamp, shiftLeft, Nat.cast_pow, Nat.cast_ofNat]
  rfl

/-- 45_trig_ops.md R108: the radians are the floor of the rounded quotient. -/
theorem phaseToRadians_spec (m : Int) :
    phaseToRadians m * 2 ^ 44 ≤ m * 1686629713 + 2 ^ 43 ∧ m * 1686629713 + 2 ^ 43 < (phaseToRadians m + 1) * 2 ^ 44 := by
  rw [phaseToRadians, twoPiQ28, asr_44]
  omega

/-- 30_encoding.md R42: the magnitude of an operand is at most that of `MIN`. -/
theorem natAbs_toInt_le (a : Word32) : a.toInt.natAbs ≤ 2 ^ 31 := by
  have hrange : -2147483648 ≤ a.toInt ∧ a.toInt ≤ 2147483647 := signed32_range a
  omega

/-- Settles O51: the cases of `atan2Raw` in order; off the axes the shift normalises by `atanShift_normalises` and the
radians are rounded by `phaseToRadians_spec`. -/
theorem atan2AnswersAngle : Obligations.Atan2AnswersAngle := by
  intro a b s
  refine ⟨decode_commandWord rfl, atan2Response a b, atan2Raw a.toInt b.toInt, rfl, reads_atan2Response a b, ?_⟩
  have hax := natAbs_toInt_le a
  have hbx := natAbs_toInt_le b
  split
  next h => exact if_pos h
  next h =>
    split
    next hb =>
      rw [hb, atan2Raw_x_zero fun ha => h ⟨hb, ha⟩]
      rfl
    next hb =>
      split
      next ha =>
        rw [ha, atan2Raw_y_zero hb]
        rfl
      next ha =>
        rw [atan2Raw_off_axis hb ha]
        obtain ⟨hlo, hhi⟩ := atanShift_normalises (ax := b.toInt.natAbs) (ay := a.toInt.natAbs) (by omega) (by omega)
        obtain ⟨hradLo, hradHi⟩ := phaseToRadians_spec
          (if b.toInt < 0 then 2147483648 - atanAngle b.toInt.natAbs a.toInt.natAbs
            else atanAngle b.toInt.natAbs a.toInt.natAbs)
        exact ⟨atanShift b.toInt.natAbs a.toInt.natAbs, _, _, _, atanShift_le _ _, hlo, hhi, atanAngle_eq _ _, rfl,
          hradLo, hradHi, rfl⟩

/-! ## The laws of the arctangent -/

/-- A factor of `2^k` adds `k` to the position of the leading bit. -/
theorem log2_mul_two_pow {m : Nat} (h : m ≠ 0) (k : Nat) : (m * 2 ^ k).log2 = m.log2 + k := by
  have hlo : 2 ^ m.log2 ≤ m := Nat.log2_self_le h
  have hhi : m < 2 ^ (m.log2 + 1) := Nat.lt_log2_self
  rw [Nat.log2_eq_iff (by positivity), Nat.add_right_comm, Nat.pow_add, Nat.pow_add _ (m.log2 + 1)]
  exact ⟨Nat.mul_le_mul_right _ hlo, Nat.mul_lt_mul_of_pos_right hhi (by positivity)⟩

/-- The normalising shift of the smaller vector makes up for a common factor of `2^k` (45_trig_ops.md R109). -/
theorem atanShift_mul_two_pow {ax ay k : Nat} (hpos : max ax ay ≠ 0) (hle : max ax ay * 2 ^ k ≤ 2 ^ 31) :
    atanShift ax ay = k + atanShift (ax * 2 ^ k) (ay * 2 ^ k) := by
  have hlog : (max ax ay * 2 ^ k).log2 < 32 := by
    rw [Nat.log2_lt (by positivity)]
    omega
  rw [atanShift, atanShift, Nat.mul_max_mul_right]
  rw [log2_mul_two_pow hpos] at *
  omega

/-- A common factor of `2^k` leaves the normalised vector, and so its angle, as it is. -/
theorem atanAngle_mul_two_pow {ax ay k : Nat} (hpos : max ax ay ≠ 0) (hle : max ax ay * 2 ^ k ≤ 2 ^ 31) :
    atanAngle (ax * 2 ^ k) (ay * 2 ^ k) = atanAngle ax ay := by
  rw [atanAngle_eq, atanAngle_eq ax, atanShift_mul_two_pow hpos hle]
  simp only [Nat.cast_mul, Nat.cast_pow, Nat.cast_ofNat, mul_assoc, pow_add]

/-- A common factor of `2^k` changes neither which case of R108 applies nor a sign. -/
theorem atan2Raw_mul_two_pow {yv xv : Int} {k : Nat} (hy : (yv * 2 ^ k).natAbs ≤ 2 ^ 31)
    (hx : (xv * 2 ^ k).natAbs ≤ 2 ^ 31) : atan2Raw (yv * 2 ^ k) (xv * 2 ^ k) = atan2Raw yv xv := by
  have hk : (0 : Int) < 2 ^ k := by positivity
  have hgt (v : Int) : v * 2 ^ k > 0 ↔ v > 0 := mul_pos_iff_of_pos_right hk
  have hlt (v : Int) : v * 2 ^ k < 0 ↔ v < 0 := by rw [Int.mul_neg_iff]; omega
  have hne {v : Int} (hv : v ≠ 0) : v * 2 ^ k ≠ 0 := mul_ne_zero hv hk.ne'
  have hnatAbs (v : Int) : (v * 2 ^ k).natAbs = v.natAbs * 2 ^ k := by rw [Int.natAbs_mul, Int.natAbs_pow]; rfl
  rcases eq_or_ne xv 0 with rfl | hx0 <;> rcases eq_or_ne yv 0 with rfl | hy0
  · rw [Int.zero_mul]
  · rw [Int.zero_mul, atan2Raw_x_zero (hne hy0), atan2Raw_x_zero hy0]
    simp only [hgt]
  · rw [Int.zero_mul, atan2Raw_y_zero (hne hx0), atan2Raw_y_zero hx0]
    simp only [hgt]
  · have hangle : atanAngle (xv.natAbs * 2 ^ k) (yv.natAbs * 2 ^ k) = atanAngle xv.natAbs yv.natAbs := by
      rw [hnatAbs] at hx hy
      refine atanAngle_mul_two_pow (by omega) ?_
      rw [← Nat.mul_max_mul_right]
      exact max_le hx hy
    rw [atan2Raw_off_axis (hne hx0) (hne hy0), atan2Raw_off_axis hx0 hy0]
    simp only [atanOffAxis, hnatAbs, hangle, hlt]

/-- The magnitude of the angle does not see the sign of y, which is applied last (45_trig_ops.md R108). -/
theorem atan2Raw_neg {yv : Int} (hy : yv ≠ 0) (xv : Int) : atan2Raw (-yv) xv = -atan2Raw yv xv := by
  have hy' : -yv ≠ 0 := by omega
  rcases eq_or_ne xv 0 with rfl | hx
  · rw [atan2Raw_x_zero hy', atan2Raw_x_zero hy]
    split_ifs <;> omega
  · rw [atan2Raw_off_axis hx hy', atan2Raw_off_axis hx hy]
    simp only [atanOffAxis, Int.natAbs_neg]
    split_ifs <;> omega

/-- Settles O53: both laws hold of the raw angle, which the response carries. -/
theorem atan2ScalesAndIsOdd : Obligations.Atan2ScalesAndIsOdd := by
  refine ⟨fun a b a' b' k ha hb => ?_, fun a a' b hne hneg => ?_⟩
  · have hraw : atan2Raw a'.toInt b'.toInt = atan2Raw a.toInt b.toInt := by
      rw [ha, hb]
      exact atan2Raw_mul_two_pow (ha ▸ natAbs_toInt_le a') (hb ▸ natAbs_toInt_le b')
    rw [atan2Response, atan2Response, signed32, signed32, signed32, signed32, hraw]
  · obtain ⟨hresult', -⟩ := reads_atan2Response a' b
    obtain ⟨hresult, -⟩ := reads_atan2Response a b
    rw [hresult', hresult, hneg, atan2Raw_neg hne]

end Sys2Proof.Proofs.TrigOps
end

section
/-!
PROOFS. The statements of 46_angle_units.md. `TODEG` is `MUL` and `TORAD` is `DIV` with the operand `RAD2DEG_RAW`; the
bounds on a truncated quotient say where the angle in degrees leaves the range, and that the angle in radians never does.
-/

namespace Sys2Proof.Proofs.AngleUnits

open Sys2Proof Sys2Proof.Machine Sys2Proof.Safety

/-- The word `0x00394BB8` is the operand whose value is `RAD2DEG_RAW` (46_angle_units.md). -/
theorem signed32_rad2deg : signed32 0x00394BB8#32 = rad2degRaw := by decide

/-! ## Radians to degrees -/

/-- 46_angle_units.md R113: the same exact result, saturated. -/
theorem mulResponse_rad2deg (a : Word32) : mulResponse a 0x00394BB8#32 = todegResponse a := by
  rw [mulResponse, signed32_rad2deg, todegResponse]

/-- 46_angle_units.md R113: the angle in degrees leaves the range from 37480663 on; from there the
quotient exceeds `2^31` in magnitude, and before it stays below `2^31 - 1`, so both ends of the range give one bound. -/
theorem mulExact_rad2deg_out_of_range_iff (v : Int) :
    mulExact v rad2degRaw > 2147483647 ∨ mulExact v rad2degRaw < -2147483648 ↔ v ≥ 37480663 ∨ v ≤ -37480663 := by
  obtain ⟨hnonneg, hnonpos⟩ := tdiv_pos_bounds (v * rad2degRaw) (d := scale) (by decide)
  rw [mulExact]
  simp only [rad2degRaw, scale] at *
  rcases le_total 0 (v * 3754936) with h | h
  · have := hnonneg h
    omega
  · have := hnonpos h
    omega

/-- Settles O54: the response is the saturated one to the truncated quotient, `SAT` where that leaves the range. -/
theorem todegIsMulByConstant : Obligations.TodegIsMulByConstant := fun a _ s =>
  ⟨decode_commandWord rfl, todegResponse a, mulExact (signed32 a) rad2degRaw, rfl, tdiv_truncates _ (by decide),
    readsSaturated_respondSaturated _, congrArg (answer · s) (mulResponse_rad2deg a),
    (satBit_respondSaturated _).trans (mulExact_rad2deg_out_of_range_iff a.toInt)⟩

/-! ## Degrees to radians -/

/-- 46_angle_units.md R114: the divisor is not zero and the quotient lies in range, so `DIV` sets no flag either. -/
theorem divResponse_rad2deg (a : Word32) : divResponse a 0x00394BB8#32 = toradResponse a := by
  obtain ⟨hlo, hhi⟩ := torad_range a
  rw [divResponse_ne a (by decide), signed32_rad2deg, respondSaturated_of_mem (by omega) (by omega), toradResponse]

/-- 46_angle_units.md R114: what the response to `TORAD` says. -/
theorem reads_toradResponse (a : Word32) :
    Reads (toradResponse a) (divExact (signed32 a) rad2degRaw) false false false := by
  obtain ⟨hlo, hhi⟩ := torad_range a
  exact reads_respond noFlags (by omega) (by omega)

/-- Settles O55: the response is the plain one to the truncated quotient, which `torad_range` bounds. -/
theorem toradIsDivByConstant : Obligations.ToradIsDivByConstant := fun a _ s =>
  ⟨decode_commandWord rfl, toradResponse a, divExact (signed32 a) rad2degRaw, rfl, tdiv_truncates _ (by decide),
    reads_toradResponse a, congrArg (answer · s) (divResponse_rad2deg a), torad_range a⟩

end Sys2Proof.Proofs.AngleUnits
end

section
/-!
PROOFS. The statements of 60_exceptions.md. What an unassigned opcode is answered with, then the three flags one by one
over the kinds of response `respondInstr_cases` lists, and an overflowing operand for each command of 10_state.md R25.
-/

namespace Sys2Proof.Proofs.Exceptions

open Sys2Proof Sys2Proof.Machine Sys2Proof.Safety Sys2Proof.Proofs.Encoding

/-- Settles O26: a response is a plain one, a saturated one, or that of one condition, each with at most one flag. -/
theorem atMostOneFlagInAnyResponse : Obligations.AtMostOneFlagInAnyResponse := responseFormed_respondWord

/-! ## Assigned and unassigned opcodes -/

theorem decode_of_assigned {c : CommandWord} (h : commandAssigned c = true) : ∃ i, decode c = .ok i := by
  obtain ⟨row, hf⟩ := Option.isSome_iff_exists.mp h
  exact ⟨_, decode_of_findRow hf⟩

/-- 60_exceptions.md R123: a word no command is assigned to is answered with `respond(0, {ILL})`. -/
theorem respondWord_of_unassigned {c : CommandWord} (h : commandAssigned c = false) : respondWord c = illegalResponse :=
  respondWord_of_error (decode_of_no_row (Option.isNone_iff_eq_none.mp (Option.isSome_eq_false_iff.mp h)))

/-! ## Flag by flag -/

theorem dbzBit_respondSaturated (v : Int) : dbzBit (respondSaturated v) = false := dbzBit_respond _ (satFlags _)

theorem illBit_respondSaturated (v : Int) : illBit (respondSaturated v) = false := illBit_respond _ (satFlags _)

/-- 60_exceptions.md R125, column `SAT`: plain and zero-divisor responses have the bit clear, and `TAN`, which answers
an asymptote, is among the commands that may overflow. -/
theorem mayOverflow_of_satBit {i : Instr} (h : satBit (respondInstr i) = true) : mayOverflow i = true := by
  rcases respondInstr_cases i with ⟨v, hmay, -⟩ | ⟨v, -, -, e⟩ | ⟨a, -, e⟩ | ⟨a, v, rfl, -, -⟩
  · exact hmay
  · rw [e, satBit_respond] at h; cases h
  · rw [e, satBit_respond] at h; cases h
  · rfl

/-- 60_exceptions.md R122: a zero divisor is answered with `respond(0, {DBZ})`. -/
theorem respondInstr_div_zero (a : Word32) : respondInstr (.div a 0) = respond 0 dbzFlags := divResponse_zero a rfl

/-- 60_exceptions.md R125, column `DBZ`: only the zero-divisor response has the bit set, an asymptote's has not. -/
theorem dbzBit_respondInstr_iff {i : Instr} : dbzBit (respondInstr i) = true ↔ ∃ a, i = .div a 0 := by
  constructor
  · intro h
    rcases respondInstr_cases i with ⟨v, -, e⟩ | ⟨v, -, -, e⟩ | ⟨a, hi, -⟩ | ⟨a, v, -, -, e⟩
    · rw [e, dbzBit_respondSaturated] at h; cases h
    · rw [e, dbzBit_respond] at h; cases h
    · exact ⟨a, hi⟩
    · rw [e, dbzBit_respond] at h; cases h
  · rintro ⟨a, rfl⟩
    rw [respondInstr_div_zero, dbzBit_respond]
    rfl

/-- 60_exceptions.md R125, column `ILL`: no command raises it. -/
theorem illBit_respondInstr (i : Instr) : illBit (respondInstr i) = false := by
  rcases respondInstr_cases i with ⟨v, -, e⟩ | ⟨v, -, -, e⟩ | ⟨a, -, e⟩ | ⟨a, v, -, -, e⟩ <;> rw [e]
  · exact illBit_respondSaturated v
  · exact illBit_respond v noFlags
  · exact illBit_respond 0 dbzFlags
  · exact illBit_respond v (satFlags true)

/-- 60_exceptions.md R123: `ILL` is the flag of an unassigned opcode, and of no other word. -/
theorem illBit_respondWord (c : CommandWord) : illBit (respondWord c) = !commandAssigned c := by
  cases h : commandAssigned c with
  | false => rw [respondWord_of_unassigned h]; exact illBit_respond 0 illFlags
  | true =>
    obtain ⟨i, hd⟩ := decode_of_assigned h
    rw [respondWord_of_decode hd]
    exact illBit_respondInstr i

/-- 45_trig_ops.md R107: just above π/2 the tangent leaves the range. -/
theorem satBit_tan_above_half_pi : satBit (respondInstr (.tan 0x00019220#32)) = true := by decide +kernel

/-- Settles O27: the three columns of R125, then for each of the ten commands operands whose exact result leaves
the range. -/
theorem whichCommandRaisesWhat : Obligations.WhichCommandRaisesWhat := by
  refine ⟨fun _ => mayOverflow_of_satBit, fun _ => dbzBit_respondInstr_iff, illBit_respondWord, fun a => ?div_zero,
    fun c h => ?unassigned, ⟨0x7FFFFFFF#32, 1#32, ?add⟩, ⟨0x80000000#32, 1#32, ?sub⟩,
    ⟨0x7FFFFFFF#32, 0x7FFFFFFF#32, ?mul⟩, ⟨0x7FFFFFFF#32, 1#32, ?div⟩, ⟨0x80000000#32, ?abs⟩, ⟨0x7FFFFFFF#32, ?ceil⟩,
    ⟨0x7FFFFFFF#32, ?round⟩, ⟨0x00019220#32, satBit_tan_above_half_pi⟩, ⟨0x7FFFFFFF#32, ?todeg⟩,
    ⟨0x7FFFFFFF#32, ?fromint⟩⟩
  case div_zero => rw [respondInstr_div_zero]; exact satBit_respond 0 dbzFlags
  case unassigned =>
    rw [respondWord_of_unassigned h]
    exact ⟨satBit_respond 0 illFlags, dbzBit_respond 0 illFlags⟩
  all_goals decide

end Sys2Proof.Proofs.Exceptions
end

section
/-!
PROOFS. The statements of 70_reset_and_hazards.md. The state after reset; the two steps of a reset; and what holds while
reset is asserted, which is the invariant of the interface together with the contract of the queue.
-/

namespace Sys2Proof.Proofs.Reset

open Sys2Proof Sys2Proof.Machine Sys2Proof.Safety Sys2Proof.Proofs.InterfaceState Sys2Proof.Proofs.Memory
  Sys2Proof.Proofs.Encoding

/-- Settles O14: the fields are those of `State.reset`, whose empty queue has room for at least one command. -/
theorem resetLeavesTheMachineIdle : Obligations.ResetLeavesTheMachineIdle :=
  ⟨rfl, rfl, rfl, fun _ => acceptable_some.mpr ⟨rfl, rfl, maxOutstanding_pos⟩⟩

/-- 70_reset_and_hazards.md R140: while reset is asserted the FPE accepts nothing. -/
theorem acceptable_of_reset {s : State} (hr : s.rst = true) : s.acceptable = none := if_pos hr

/-- A listed assertion of reset happens where no command is acceptable (log entries 1 and 10). -/
theorem step_assertReset {s : State} {later : List Input} (ha : s.acceptable = none)
    (hi : s.inputs = .assertReset :: later) : step s = .next (State.assertReset { s with inputs := later }) :=
  step_listed ha hi

/-- A listed release of reset happens where no command is acceptable (log entries 1 and 10). -/
theorem step_releaseReset {s : State} {later : List Input} (ha : s.acceptable = none)
    (hi : s.inputs = .releaseReset :: later) : step s = .next (State.releaseReset { s with inputs := later }) :=
  step_listed ha hi

/-- Settles O22: the first step is `State.assertReset`; under reset nothing is acceptable, so the second is
`State.releaseReset`. -/
theorem resetDiscardsUnansweredCommands : Obligations.ResetDiscardsUnansweredCommands := by
  intro s later ha hi
  have hrelease := step_releaseReset (s := State.assertReset { s with inputs := .releaseReset :: later })
    (acceptable_of_reset rfl) rfl
  rw [steps_succ (step_assertReset ha hi), steps_succ hrelease]
  rfl

/-- Under reset with nothing queued, the contract has no acceptance and no delivery left. -/
theorem contractChange_under_reset {s t : State} (hr : s.rst = true) (hq : s.queue = []) (h : ContractChange s t) :
    t.queue = [] ∧ t.delivered = s.delivered := by
  rcases h with ⟨htq, htd⟩ | ⟨c, -, hr', -⟩ | ⟨c, rest, hq', -⟩ | ⟨-, htq, htd⟩
  · exact ⟨htq.trans hq, htd⟩
  · rw [hr] at hr'; cases hr'
  · rw [hq] at hq'; cases hq'
  · exact ⟨htq, htd⟩

/-- An offered response is that of a queued command, so an empty queue has none (30_encoding.md R49 items 3 to 5). -/
theorem offered_of_queue_nil {s : State} (h : Inv s) (hq : s.queue = []) : s.offered = none := by
  cases ho : s.offered with
  | none => rfl
  | some r =>
    obtain ⟨c, rest, hcons, -⟩ := queue_of_offered h ho
    rw [hq] at hcons
    cases hcons

/-- Settles O23: under reset the queue is empty, the contract keeps it so without a delivery, and the next state meets
the invariant, so it offers nothing. -/
theorem nothingMovesUnderReset : Obligations.NothingMovesUnderReset := by
  intro s t h hr hs
  obtain ⟨hq, -⟩ := h.idleUnderReset hr
  obtain ⟨htq, htd⟩ := contractChange_under_reset hr hq (queueChangesOnlyByTheContract s t h hs)
  exact ⟨htq, offered_of_queue_nil (stepKeepsInterfaceInvariant s t h hs) htq, htd⟩

end Sys2Proof.Proofs.Reset
end
